-- ==== Sys2Proof/Word.lean ====
section
/-! DEFINITION. The bus word. Every access of the host and every command is one 32-bit word
(20_memory.md R66, 30_encoding.md R80). The operand registers are no words: they hold non-negative
integers below 2^W (00_scope.md R10), so they are natural numbers in this model. -/

namespace Sys2Proof

/-- A bus word, and a command word. -/
abbrev Word32 := BitVec 32

end Sys2Proof
end

