-- ==== Sys2Proof/Config.lean ====
section
/-! DEFINITION. What one hardware instance fixes (its parameters W and BASE), the fixed register
counts, and the free values: constants with no body, of which nothing can be proved. -/

namespace Sys2Proof

/-- The parameters of one hardware instance: the operand width W (00_scope.md R7) and the base
address BASE (20_memory.md R61). They stand in the state as plain data that no step changes, so that
a statement about every state is a statement about every instance. -/
structure Params where
  /-- W, the width in bits of every operand register. -/
  width : Nat
  /-- BASE, the bus address of offset 0 of the register map. -/
  base : Nat
deriving DecidableEq, Repr

/-- The legal values of W (00_scope.md R7). -/
abbrev Params.Legal (p : Params) : Prop := 2 ≤ p.width ∧ p.width ≤ 4096

/-- The reference configuration, W = 256 (00_scope.md R7). DESIGN CHOICE (log entry 2): BASE is left
open by the spec and is 0 here. Unsafe: a statement about reset that used BASE = 0 would say nothing
of a platform with another base. -/
def Params.reference : Params := { width := 256, base := 0 }

namespace Config

/-- NF, the number of field registers (00_scope.md R8). -/
abbrev numF : Nat := 16

/-- NP, the number of point registers (00_scope.md R8). -/
abbrev numPt : Nat := 8

/-- The word a host read of an F window, a PT window or PTINF returns while the block is Busy:
unspecified (20_memory.md R68, 93_implementation_defined.md U2). A free value, one for each draw.
DESIGN CHOICE (log entry 5), safe: every statement holds whatever it is. -/
opaque busyRead : Nat → Word32

/-- The integer an operand register holds once the spec calls its value unspecified: after a
hardware reset during a run (10_state.md R41) and in the destination of a command that a soft reset
aborts (70_reset_and_hazards.md R212). A free value, one for each draw; the register keeps its low W
bits. DESIGN CHOICE (log entry 4), safe: every statement holds whatever it is. -/
opaque unspecifiedValue : Nat → Nat

/-- The same for the inf bit of a point register. DESIGN CHOICE (log entry 4), safe. -/
opaque unspecifiedFlag : Nat → Bool

end Config

end Sys2Proof
end

