-- ==== Sys2Proof/Syntax.lean ====
section
/-! DEFINITION. The commands: the raw fields of a command word, and one constructor for each row of
the opcode map (30_encoding.md R80, R85). The pseudo-instructions of R90 are lists of commands. -/

namespace Sys2Proof

/-- The seven fields of a command word as they stand in it (30_encoding.md R80), before anything is
checked. -/
structure Fields where
  /-- bits [5:0] -/
  opc : BitVec 6
  /-- bits [7:6] -/
  msel : BitVec 2
  /-- bits [11:8] -/
  d : BitVec 4
  /-- bits [15:12] -/
  a : BitVec 4
  /-- bits [19:16] -/
  b : BitVec 4
  /-- bit [20] -/
  neg : BitVec 1
  /-- bits [31:21] -/
  rsv : BitVec 11
deriving DecidableEq, Repr

/-- The modulus a modular command selects (30_encoding.md R84): the curve prime CP, the group order
CN, or the general modulus MG. MSEL = 3 is reserved and has no constructor. -/
inductive Modulus where
  | p
  | n
  | g
deriving DecidableEq, Repr

/-- The index of a field register F0..F15. -/
abbrev FReg := Fin 16

/-- The index of a point register PT0..PT7. -/
abbrev PReg := Fin 8

/-- The commands, one constructor for each row of the opcode map (30_encoding.md R85), operands in
the assembler's order: destination, then A, then B (R89). Every register number is in range by its
type, so every term is well formed; the checks of R86 are on the raw fields (WellFormed.lean). -/
inductive Instr where
  /-- NOP (43_system.md R170). -/
  | nop
  /-- MADD.s Fd, Fa, Fb (40_modular.md R101). -/
  | madd (sel : Modulus) (d a b : FReg)
  /-- MSUB.s Fd, Fa, Fb (40_modular.md R102). -/
  | msub (sel : Modulus) (d a b : FReg)
  /-- MMUL.s Fd, Fa, Fb (40_modular.md R103). -/
  | mmul (sel : Modulus) (d a b : FReg)
  /-- MINV.s Fd, Fa (40_modular.md R104). -/
  | minv (sel : Modulus) (d a : FReg)
  /-- MPOW.s Fd, Fa, Fb (40_modular.md R105). -/
  | mpow (sel : Modulus) (d a b : FReg)
  /-- FMOV Fd, Fa (40_modular.md R106). -/
  | fmov (d a : FReg)
  /-- PADD PTd, PTa, PTb (41_point.md R121). -/
  | padd (d a b : PReg)
  /-- PDBL PTd, PTa (41_point.md R122). -/
  | pdbl (d a : PReg)
  /-- PNEG PTd, PTa (41_point.md R123). -/
  | pneg (d a : PReg)
  /-- PMUL[.neg] PTd, PTa, Fb (42_scalar_mul.md R150). -/
  | pmul (neg : Bool) (d a : PReg) (b : FReg)
  /-- PSET PTd, Fa, Fb (41_point.md R127). -/
  | pset (d : PReg) (a b : FReg)
  /-- PINF PTd (41_point.md R128). -/
  | pinf (d : PReg)
  /-- PLDG PTd (41_point.md R129). -/
  | pldg (d : PReg)
  /-- PGETX Fd, PTa (41_point.md R130). -/
  | pgetx (d : FReg) (a : PReg)
  /-- PGETY Fd, PTa (41_point.md R131). -/
  | pgety (d : FReg) (a : PReg)
  /-- PMOV PTd, PTa (41_point.md R132). -/
  | pmov (d a : PReg)
deriving DecidableEq, Repr

/-- The pseudo-instructions of the assembler (30_encoding.md R90). -/
inductive Pseudo where
  /-- MRED.s Fd, Fa -/
  | mred (sel : Modulus) (d a : FReg)
  /-- MNEG.s Fd, Fa -/
  | mneg (sel : Modulus) (d a : FReg)
  /-- MSQR.s Fd, Fa -/
  | msqr (sel : Modulus) (d a : FReg)
  /-- MONE.s Fd -/
  | mone (sel : Modulus) (d : FReg)
  /-- MDIV.s Fd, Fa, Fb -/
  | mdiv (sel : Modulus) (d a b : FReg)
  /-- FCLR Fd -/
  | fclr (d : FReg)
  /-- PSUB PTd, PTa, PTb -/
  | psub (d a b : PReg)
deriving DecidableEq, Repr

end Sys2Proof
end

