-- ==== Sys2Proof/WellFormed.lean ====
section
/-! DEFINITION. Which raw command words are legal, condition by condition as 30_encoding.md R86 lists
them, and the constraints R90 puts on two pseudo-instructions. The decoder (Decode.lean) is written
from R87 on its own; that the two agree is a statement, not a definition. -/

namespace Sys2Proof

/-- The class the opcode map gives a register field of a command (30_encoding.md R81, R85): "0", an F
register, or a PT register. -/
inductive FieldClass where
  | unused
  | f
  | pt
deriving DecidableEq, Repr

namespace Fields

/-- The classes of the fields D, A and B (the columns of 30_encoding.md R85). A reserved opcode has no
row; its fields count as unused here and the word is illegal by its opcode. -/
def classes (x : Fields) : FieldClass × FieldClass × FieldClass :=
  match x.opc.toNat with
  | 0x01 => (.f, .f, .f)
  | 0x02 => (.f, .f, .f)
  | 0x03 => (.f, .f, .f)
  | 0x04 => (.f, .f, .unused)
  | 0x05 => (.f, .f, .f)
  | 0x06 => (.f, .f, .unused)
  | 0x10 => (.pt, .pt, .pt)
  | 0x11 => (.pt, .pt, .unused)
  | 0x12 => (.pt, .pt, .unused)
  | 0x13 => (.pt, .pt, .f)
  | 0x14 => (.pt, .f, .f)
  | 0x15 => (.pt, .unused, .unused)
  | 0x16 => (.pt, .unused, .unused)
  | 0x17 => (.f, .pt, .unused)
  | 0x18 => (.f, .pt, .unused)
  | 0x19 => (.pt, .pt, .unused)
  | _ => (.unused, .unused, .unused)

/-- MADD, MSUB, MMUL, MINV, MPOW (the last line of 30_encoding.md R87). -/
def modular (x : Fields) : Bool := 0x01 ≤ x.opc.toNat && x.opc.toNat ≤ 0x05

/-- OPC is one of 0x00–0x06, 0x10–0x19. -/
def opcodeKnown (x : Fields) : Bool :=
  x.opc.toNat ≤ 0x06 || (0x10 ≤ x.opc.toNat && x.opc.toNat ≤ 0x19)

/-- RSV = 0. -/
def rsvZero (x : Fields) : Bool := x.rsv == 0

/-- NEG = 1 only in PMUL (OPC = 0x13). -/
def negOnlyInPmul (x : Fields) : Bool := x.neg == 0 || x.opc.toNat == 0x13

/-- MSEL = 0 for a non-modular OPC. -/
def mselOnlyInModular (x : Fields) : Bool := x.msel == 0 || x.modular

/-- MSEL is not the reserved value 3. -/
def mselNotReserved (x : Fields) : Bool := x.msel != 3

/-- One field against its class: a field the command does not use is 0, and bit 3 of a field that
names a PT register is 0 (30_encoding.md R81). -/
def fieldOk : FieldClass → BitVec 4 → Bool
  | .unused, v => v == 0
  | .f, _ => true
  | .pt, v => v.toNat < 8

/-- Every register field is as its class asks. -/
def fieldsOk (x : Fields) : Bool :=
  fieldOk x.classes.1 x.d && fieldOk x.classes.2.1 x.a && fieldOk x.classes.2.2 x.b

/-- A legal command word: none of the conditions of 30_encoding.md R86 holds. -/
def legal (x : Fields) : Bool :=
  x.opcodeKnown && x.rsvZero && x.negOnlyInPmul && x.mselOnlyInModular && x.mselNotReserved &&
    x.fieldsOk

end Fields

/-- The constraint column of 30_encoding.md R90: d ≠ a for MDIV and PSUB. -/
def Pseudo.wellFormed : Pseudo → Bool
  | .mred _ _ _ => true
  | .mneg _ _ _ => true
  | .msqr _ _ _ => true
  | .mone _ _ => true
  | .mdiv _ d a _ => d != a
  | .fclr _ => true
  | .psub d a _ => d != a

end Sys2Proof
end

