-- ==== Sys2Proof/Decode.lean ====
section
/-! DEFINITION. The decoder of command words, total and rejecting by name (30_encoding.md R87); the
encoder, written from the field layout of R80 and the opcode map of R85; the bit patterns of R85 as
rows of a mask and a match; the assembler's text (R89) and pseudo-instructions (R90). -/

namespace Sys2Proof

/-- Why a command word is illegal, in the order of the checks of 30_encoding.md R87. Each of them ends
the command with E_ILLEGAL (R86). -/
inductive Reject where
  /-- RSV is not 0. -/
  | reservedBits
  /-- OPC is no row of the opcode map. -/
  | reservedOpcode
  /-- NEG = 1 in a command other than PMUL. -/
  | negNotAllowed
  /-- MSEL = 3 in a modular command. -/
  | reservedModulus
  /-- MSEL is not 0 in a command that is not modular. -/
  | mselNotAllowed
  /-- A field the command does not use is not 0. -/
  | unusedField
  /-- Bit 3 of a field that names a PT register is 1. -/
  | pointRegister
deriving DecidableEq, Repr

/-- The fields of a word (30_encoding.md R80). -/
def Fields.ofWord (w : Word32) : Fields where
  opc := w.extractLsb' 0 6
  msel := w.extractLsb' 6 2
  d := w.extractLsb' 8 4
  a := w.extractLsb' 12 4
  b := w.extractLsb' 16 4
  neg := w.extractLsb' 20 1
  rsv := w.extractLsb' 21 11

/-- The word with given fields: OPC | MSEL<<6 | D<<8 | A<<12 | B<<16 | NEG<<20, and RSV above them
(30_encoding.md R80). -/
def Fields.toWord (x : Fields) : Word32 :=
  x.opc.setWidth 32 ||| x.msel.setWidth 32 <<< 6 ||| x.d.setWidth 32 <<< 8 |||
    x.a.setWidth 32 <<< 12 ||| x.b.setWidth 32 <<< 16 ||| x.neg.setWidth 32 <<< 20 |||
    x.rsv.setWidth 32 <<< 21

namespace Decoder

/-- NEG must be 0. -/
def noNeg (x : Fields) : Except Reject Unit :=
  if x.neg = 0 then .ok () else .error .negNotAllowed

/-- The modulus of a modular command (30_encoding.md R84). -/
def modulus (x : Fields) : Except Reject Modulus :=
  match x.msel.toNat with
  | 0 => .ok .p
  | 1 => .ok .n
  | 2 => .ok .g
  | _ => .error .reservedModulus

/-- MSEL must be 0. -/
def noMsel (x : Fields) : Except Reject Unit :=
  if x.msel = 0 then .ok () else .error .mselNotAllowed

/-- A field the command does not use. -/
def unused (v : BitVec 4) : Except Reject Unit :=
  if v = 0 then .ok () else .error .unusedField

/-- A field that names a PT register. -/
def pt (v : BitVec 4) : Except Reject PReg :=
  if h : v.toNat < 8 then .ok ⟨v.toNat, h⟩ else .error .pointRegister

/-- A field that names an F register: all four bits. -/
def f (v : BitVec 4) : FReg := ⟨v.toNat, v.isLt⟩

end Decoder

open Decoder in
/-- The command of raw fields, the checks in the order of 30_encoding.md R87. A modular command's NEG
is checked before its MSEL. -/
def decodeFields (x : Fields) : Except Reject Instr :=
  if x.rsv ≠ 0 then .error .reservedBits else
  match x.opc.toNat with
  | 0x00 => do noNeg x; noMsel x; unused x.d; unused x.a; unused x.b; return .nop
  | 0x01 => do noNeg x; let m ← modulus x; return .madd m (f x.d) (f x.a) (f x.b)
  | 0x02 => do noNeg x; let m ← modulus x; return .msub m (f x.d) (f x.a) (f x.b)
  | 0x03 => do noNeg x; let m ← modulus x; return .mmul m (f x.d) (f x.a) (f x.b)
  | 0x04 => do noNeg x; let m ← modulus x; unused x.b; return .minv m (f x.d) (f x.a)
  | 0x05 => do noNeg x; let m ← modulus x; return .mpow m (f x.d) (f x.a) (f x.b)
  | 0x06 => do noNeg x; noMsel x; unused x.b; return .fmov (f x.d) (f x.a)
  | 0x10 => do noNeg x; noMsel x; let d ← pt x.d; let a ← pt x.a; let b ← pt x.b; return .padd d a b
  | 0x11 => do noNeg x; noMsel x; let d ← pt x.d; let a ← pt x.a; unused x.b; return .pdbl d a
  | 0x12 => do noNeg x; noMsel x; let d ← pt x.d; let a ← pt x.a; unused x.b; return .pneg d a
  | 0x13 => do noMsel x; let d ← pt x.d; let a ← pt x.a; return .pmul (x.neg == 1) d a (f x.b)
  | 0x14 => do noNeg x; noMsel x; let d ← pt x.d; return .pset d (f x.a) (f x.b)
  | 0x15 => do noNeg x; noMsel x; let d ← pt x.d; unused x.a; unused x.b; return .pinf d
  | 0x16 => do noNeg x; noMsel x; let d ← pt x.d; unused x.a; unused x.b; return .pldg d
  | 0x17 => do noNeg x; noMsel x; let a ← pt x.a; unused x.b; return .pgetx (f x.d) a
  | 0x18 => do noNeg x; noMsel x; let a ← pt x.a; unused x.b; return .pgety (f x.d) a
  | 0x19 => do noNeg x; noMsel x; let d ← pt x.d; let a ← pt x.a; unused x.b; return .pmov d a
  | _ => .error .reservedOpcode

/-- The command of a word, or the name of the first check that fails. It needs nothing but the word
(30_encoding.md R88); the checks of LOCK and of the modulus are the machine's (Operands.lean). -/
def decode (w : Word32) : Except Reject Instr := decodeFields (Fields.ofWord w)

namespace Encoder

/-- A PT register in a four-bit field, bit 3 zero (30_encoding.md R81). -/
def pt (r : PReg) : BitVec 4 := BitVec.ofNat 4 r.val

/-- An F register in a four-bit field. -/
def f (r : FReg) : BitVec 4 := BitVec.ofNat 4 r.val

/-- MSEL of a modulus (30_encoding.md R84). -/
def msel : Modulus → BitVec 2
  | .p => 0
  | .n => 1
  | .g => 2

/-- A field's contents before its row fills them in: every field the row does not use is 0. -/
def blank (opc : BitVec 6) : Fields :=
  { opc := opc, msel := 0, d := 0, a := 0, b := 0, neg := 0, rsv := 0 }

end Encoder

open Encoder in
/-- The fields of a command (30_encoding.md R85). -/
def Instr.fields : Instr → Fields
  | .nop => blank 0x00
  | .madd m d a b => { blank 0x01 with msel := msel m, d := f d, a := f a, b := f b }
  | .msub m d a b => { blank 0x02 with msel := msel m, d := f d, a := f a, b := f b }
  | .mmul m d a b => { blank 0x03 with msel := msel m, d := f d, a := f a, b := f b }
  | .minv m d a => { blank 0x04 with msel := msel m, d := f d, a := f a }
  | .mpow m d a b => { blank 0x05 with msel := msel m, d := f d, a := f a, b := f b }
  | .fmov d a => { blank 0x06 with d := f d, a := f a }
  | .padd d a b => { blank 0x10 with d := pt d, a := pt a, b := pt b }
  | .pdbl d a => { blank 0x11 with d := pt d, a := pt a }
  | .pneg d a => { blank 0x12 with d := pt d, a := pt a }
  | .pmul n d a b => { blank 0x13 with d := pt d, a := pt a, b := f b, neg := BitVec.ofBool n }
  | .pset d a b => { blank 0x14 with d := pt d, a := f a, b := f b }
  | .pinf d => { blank 0x15 with d := pt d }
  | .pldg d => { blank 0x16 with d := pt d }
  | .pgetx d a => { blank 0x17 with d := f d, a := pt a }
  | .pgety d a => { blank 0x18 with d := f d, a := pt a }
  | .pmov d a => { blank 0x19 with d := pt d, a := pt a }

/-- The word of a command. -/
def encode (i : Instr) : Word32 := i.fields.toWord

/-- One row of the table of bit patterns (30_encoding.md R85): the word's fixed bits and their
values. -/
structure Row where
  mnemonic : String
  mask : Word32
  pattern : Word32
deriving DecidableEq, Repr

/-- The row of a command, its mask and match read off the bit patterns of 30_encoding.md R85. -/
def Instr.row : Instr → Row
  | .nop => ⟨"NOP", 0xFFFFFFFF, 0x00000000⟩
  | .madd _ _ _ _ => ⟨"MADD", 0xFFF0003F, 0x00000001⟩
  | .msub _ _ _ _ => ⟨"MSUB", 0xFFF0003F, 0x00000002⟩
  | .mmul _ _ _ _ => ⟨"MMUL", 0xFFF0003F, 0x00000003⟩
  | .minv _ _ _ => ⟨"MINV", 0xFFFF003F, 0x00000004⟩
  | .mpow _ _ _ _ => ⟨"MPOW", 0xFFF0003F, 0x00000005⟩
  | .fmov _ _ => ⟨"FMOV", 0xFFFF00FF, 0x00000006⟩
  | .padd _ _ _ => ⟨"PADD", 0xFFF888FF, 0x00000010⟩
  | .pdbl _ _ => ⟨"PDBL", 0xFFFF88FF, 0x00000011⟩
  | .pneg _ _ => ⟨"PNEG", 0xFFFF88FF, 0x00000012⟩
  | .pmul _ _ _ _ => ⟨"PMUL", 0xFFE088FF, 0x00000013⟩
  | .pset _ _ _ => ⟨"PSET", 0xFFF008FF, 0x00000014⟩
  | .pinf _ => ⟨"PINF", 0xFFFFF8FF, 0x00000015⟩
  | .pldg _ => ⟨"PLDG", 0xFFFFF8FF, 0x00000016⟩
  | .pgetx _ _ => ⟨"PGETX", 0xFFFF80FF, 0x00000017⟩
  | .pgety _ _ => ⟨"PGETY", 0xFFFF80FF, 0x00000018⟩
  | .pmov _ _ => ⟨"PMOV", 0xFFFF88FF, 0x00000019⟩

/-- The command word of a table word: `nbits` bits of it count, every bit above them is 0. -/
def tableWord (nbits w : Nat) : Word32 := BitVec.ofNat 32 (w % 2 ^ nbits)

/-- What the decoder reads from a word numbered as the opcode table numbers it. A command is one
32-bit bus word whose bit 0 is its least significant bit (30_encoding.md R80, 20_memory.md R65), so
the table's numbering is the word's own. -/
def decodeTableWord (nbits w : Nat) : Option Instr :=
  match decode (tableWord nbits w) with
  | .ok i => some i
  | .error _ => none

/-- The commands a pseudo-instruction stands for, in the order the host issues them (30_encoding.md
R90). -/
def Pseudo.expand : Pseudo → List Instr
  | .mred s d a => [.madd s d a 0]
  | .mneg s d a => [.msub s d 0 a]
  | .msqr s d a => [.mmul s d a a]
  | .mone s d => [.mpow s d 0 0]
  | .mdiv s d a b => [.minv s d b, .mmul s d a d]
  | .fclr d => [.fmov d 0]
  | .psub d a b => [.pneg d b, .padd d a d]

namespace Assembly

/-- F0..F15 -/
def f (r : FReg) : String := "F" ++ toString r.val

/-- PT0..PT7 -/
def pt (r : PReg) : String := "PT" ++ toString r.val

/-- The mandatory modulus suffix. -/
def suffix : Modulus → String
  | .p => ".p"
  | .n => ".n"
  | .g => ".g"

/-- A mnemonic and its operands, destination first. -/
def line (m : String) (ops : List String) : String := m ++ " " ++ ", ".intercalate ops

end Assembly

open Assembly in
/-- The assembler text of a command (30_encoding.md R89). -/
def Instr.assembly : Instr → String
  | .nop => "NOP"
  | .madd s d a b => line ("MADD" ++ suffix s) [f d, f a, f b]
  | .msub s d a b => line ("MSUB" ++ suffix s) [f d, f a, f b]
  | .mmul s d a b => line ("MMUL" ++ suffix s) [f d, f a, f b]
  | .minv s d a => line ("MINV" ++ suffix s) [f d, f a]
  | .mpow s d a b => line ("MPOW" ++ suffix s) [f d, f a, f b]
  | .fmov d a => line "FMOV" [f d, f a]
  | .padd d a b => line "PADD" [pt d, pt a, pt b]
  | .pdbl d a => line "PDBL" [pt d, pt a]
  | .pneg d a => line "PNEG" [pt d, pt a]
  | .pmul n d a b => line (if n then "PMUL.neg" else "PMUL") [pt d, pt a, f b]
  | .pset d a b => line "PSET" [pt d, f a, f b]
  | .pinf d => line "PINF" [pt d]
  | .pldg d => line "PLDG" [pt d]
  | .pgetx d a => line "PGETX" [f d, pt a]
  | .pgety d a => line "PGETY" [f d, pt a]
  | .pmov d a => line "PMOV" [pt d, pt a]

end Sys2Proof
end

