-- ==== Sys2Proof/Machine/State.lean ====
section
/-! DEFINITION. The state of the block (10_state.md), what the outside world does next, and the state
after reset. The block has no memory and no program counter (10_state.md R29, 20_memory.md R60): its
one address space is its register map, which Machine/Bus.lean lays over these fields. -/

namespace Sys2Proof.Machine

/-- The fault codes of STATUS.FCODE (60_exceptions.md R180). The reserved codes 0x6 to 0xF are never
written, so no constructor stands for them (93_implementation_defined.md U7). -/
inductive FaultCode where
  /-- NONE: no fault since reset. -/
  | noFault
  /-- E_ILLEGAL: the command word is illegal. -/
  | illegal
  /-- E_CFG: the command reads a curve constant and CTRL.LOCK = 0. -/
  | cfg
  /-- E_MOD: the command's modulus is below 2. -/
  | mod
  /-- E_INV_ZERO: an operand of Inv is not invertible. -/
  | invZero
  /-- E_INF_COORD: a coordinate of INF was read. -/
  | infCoord
deriving DecidableEq, Repr

/-- A Point value: the tagged variant of 10_state.md R23. -/
inductive Point where
  | inf
  | affine (x y : Nat)
deriving DecidableEq, Repr

/-- One point register as it is stored: the inf bit and both coordinates, which keep their contents
while inf = 1 (10_state.md R23). -/
structure PtReg where
  inf : Bool
  x : Nat
  y : Nat
deriving DecidableEq, Repr

/-- The seven curve constant registers (10_state.md R26). -/
structure CurveParams where
  /-- the prime modulus p -/
  cp : Nat
  /-- coefficient a -/
  ca : Nat
  /-- coefficient b -/
  cb : Nat
  /-- x of the generator -/
  cgx : Nat
  /-- y of the generator -/
  cgy : Nat
  /-- the group order n -/
  cn : Nat
  /-- the cofactor h -/
  ch : Nat
deriving DecidableEq, Repr

/-- The stored bits of CTRL (10_state.md R33). SRST is write-only and acts at once: it is no state. -/
structure Ctrl where
  ie : Bool
  lock : Bool
deriving DecidableEq, Repr

/-- The fields of STATUS (10_state.md R34). -/
structure Status where
  busy : Bool
  done : Bool
  fault : Bool
  rinf : Bool
  fcode : FaultCode
  cmdDrop : Bool
  wrDrop : Bool
deriving DecidableEq, Repr

/-- The hidden state of the scalar-multiply engine (10_state.md R30, 42_scalar_mul.md R151): the
accumulator R, the running point Q and the bit index i. -/
structure Ladder where
  r : Point
  q : Point
  i : Nat
deriving DecidableEq, Repr

/-- What an access does: a read, or a write of a bus word. -/
inductive AccessKind where
  | read
  | write (v : Word32)
deriving DecidableEq, Repr

/-- One access of the host on the bus: a byte address, the byte lanes it enables, and its kind
(20_memory.md R60, R66). -/
structure Access where
  addr : Nat
  lanes : BitVec 4
  kind : AccessKind
deriving DecidableEq, Repr

/-- Who moves next. The block serves one host, one access at a time (20_memory.md R70), and its
sequencer ends an accepted command at some later point (70_reset_and_hazards.md R219). -/
inductive Turn where
  /-- The bus delivers one access of the host. -/
  | host (a : Access)
  /-- The sequencer executes the command in progress and ends it. -/
  | sequencer
  /-- The scalar-multiply engine performs one iteration of its ladder, if PMUL is in progress. -/
  | engine
  /-- The reset input is asserted (or the power came back), perhaps while an access of the host
  reaches the block, which then has no effect (70_reset_and_hazards.md R211). -/
  | reset (coincident : Option Access)
deriving DecidableEq, Repr

/-- The whole state. `turns`, `draws` and `busData` are the model's own fields (log entries 4, 6 and
13); every other field is the spec's. -/
structure State where
  /-- W and BASE of this hardware; no step changes them. -/
  params : Params
  /-- F0..F15; F0 is hardwired to zero and never read from here (10_state.md R20, R21). -/
  f : Vector Nat 16
  /-- PT0..PT7 (10_state.md R23). -/
  pt : Vector PtReg 8
  /-- CP, CA, CB, CGX, CGY, CN, CH (10_state.md R26). -/
  consts : CurveParams
  /-- MG, the general modulus (10_state.md R28). -/
  mg : Nat
  /-- CTRL (10_state.md R33). -/
  ctrl : Ctrl
  /-- STATUS (10_state.md R34). -/
  status : Status
  /-- CMD, the last accepted command word (10_state.md R36). -/
  cmd : Word32
  /-- FCMD, the command word of the last command that faulted (10_state.md R37). -/
  fcmd : Word32
  /-- The latched word of the command in progress (10_state.md R30 (a)). -/
  latched : Word32
  /-- R, Q and i of the scalar-multiply engine while it is under way (10_state.md R30 (b)). -/
  ladder : Option Ladder
  /-- The word the block drove on the bus for the latest read (model's own, log entry 13). -/
  busData : Option Word32
  /-- What happens next, oldest first (model's own, log entry 6). -/
  turns : List Turn
  /-- How many free values have been drawn (model's own, log entry 4). -/
  draws : Nat
deriving DecidableEq, Repr

/-- Why the machine stops. -/
inductive Fault where
  /-- Raised by a host access whose address lies outside BASE + 0x0000–0x7FFF: the block does not
  decode it (20_memory.md R61), and what another device answers is not in the spec. Safe: the model
  stops and proves nothing of it. -/
  | outsideRegisterMap (addr : Nat)
deriving DecidableEq, Repr

/-- Why an instruction has no meaning in this model. -/
inductive Refusal where
  /-- Raised by no arm of exec: every command of the opcode map has its meaning. Safe. -/
  | notModelled (mnemonic : String)
deriving DecidableEq, Repr

/-- The state right after a hardware reset (10_state.md R41): control, status, CMD, FCMD and F0 are 0,
the block is Idle and unlocked. The datapath registers are unspecified there; they are 0 here. DESIGN
CHOICE (log entry 3), unsafe: a statement could lean on those zeros. -/
def State.reset : State where
  params := Params.reference
  f := Vector.replicate 16 0
  pt := Vector.replicate 8 { inf := false, x := 0, y := 0 }
  consts := { cp := 0, ca := 0, cb := 0, cgx := 0, cgy := 0, cn := 0, ch := 0 }
  mg := 0
  ctrl := { ie := false, lock := false }
  status := { busy := false, done := false, fault := false, rinf := false, fcode := .noFault,
              cmdDrop := false, wrDrop := false }
  cmd := 0
  fcmd := 0
  latched := 0
  ladder := none
  busData := none
  turns := []
  draws := 0

end Sys2Proof.Machine
end

