-- ==== Sys2Proof/Machine/Arith.lean ====
section
/-! DEFINITION. The arithmetic of the five units: residues, the modular inverse, exponentiation, the
point adder and the double-and-add ladder. Everything is exact integer arithmetic (00_scope.md R10,
40_modular.md R107); the first data fault ends a computation (60_exceptions.md R186). -/

namespace Sys2Proof.Machine

/-- The number of bits without leading zeros, 0 for 0 (00_scope.md R10). -/
def bitlen (v : Nat) : Nat := if v = 0 then 0 else Nat.log2 v + 1

/-- `x mod m`, the least non-negative residue of an integer of either sign (00_scope.md R11). -/
def residue (x : Int) (m : Nat) : Nat := (x % (m : Int)).toNat

/-- The extended Euclidean loop on remainders r0, r1 with cofactors t0, t1: it answers the cofactor of
the last nonzero remainder. One round of fuel for each division. -/
def euclid : Nat → Nat → Nat → Int → Int → Int
  | 0, _, _, t0, _ => t0
  | k + 1, r0, r1, t0, t1 =>
    if r1 = 0 then t0 else euclid k r1 (r0 % r1) t1 (t0 - ((r0 / r1 : Nat) : Int) * t1)

/-- `Inv(v, m)` (00_scope.md R12): E_INV_ZERO when v and m have a common factor, else the inverse in
[0, m − 1]. -/
def inv (v : Int) (m : Nat) : Except FaultCode Nat :=
  let u := residue v m
  if Nat.gcd u m ≠ 1 then .error .invZero
  else .ok (residue (euclid (u + 1) m u 0 1) m)

/-- Square and multiply over the low bits of e, the result so far in acc. -/
def powLoop (m : Nat) : Nat → Nat → Nat → Nat → Nat
  | 0, _, _, acc => acc
  | k + 1, b, e, acc =>
    powLoop m k (b * b % m) (e / 2) (if e % 2 = 1 then acc * b % m else acc)

/-- `b ^ e mod m` with b ^ 0 = 1 (40_modular.md R105), computed over the bits of e. -/
def powMod (b e m : Nat) : Nat := powLoop m (bitlen e) (b % m) e (1 % m)

/-- Negate (41_point.md R123): INF stays INF, x is kept as it is, y becomes (p − y) mod p. -/
def pointNeg (p : Nat) : Point → Point
  | .inf => .inf
  | .affine x y => .affine x (residue ((p : Int) - y) p)

/-- The third point of the chord or tangent of slope lam through (x1, y1) and a point with x = x2 (the
last three lines of Add, 41_point.md R121). -/
def chord (p x1 y1 x2 lam : Nat) : Point :=
  let xr := residue ((lam : Int) * lam - x1 - x2) p
  .affine xr (residue ((lam : Int) * ((x1 : Int) - xr) - y1) p)

/-- Add(P, Q) over the prime p with coefficient a, branch by branch in the source's order (41_point.md
R121). Equality compares the stored integers; the inverse test is on residues (R124). -/
def pointAdd (p a : Nat) : Point → Point → Except FaultCode Point
  | .inf, q => .ok q
  | .affine x1 y1, .inf => .ok (.affine x1 y1)
  | .affine x1 y1, .affine x2 y2 =>
    if x1 = x2 ∧ (y1 + y2) % p = 0 then .ok .inf
    else if x1 = x2 ∧ y1 = y2 then
      if y1 = 0 then .ok .inf
      else
        match inv (2 * (y1 : Int)) p with
        | .error c => .error c
        | .ok v => .ok (chord p x1 y1 x2 (residue ((3 * (x1 : Int) * x1 + a) * v) p))
    else
      match inv ((x2 : Int) - x1) p with
      | .error c => .error c
      | .ok v => .ok (chord p x1 y1 x2 (residue (((y2 : Int) - y1) * v) p))

/-- One iteration of the ladder for bit i of k: the conditional addition, then the doubling
(42_scalar_mul.md R151). -/
def ladderBit (p a k : Nat) (l : Ladder) : Except FaultCode Ladder :=
  match (if k.testBit l.i then pointAdd p a l.r l.q else .ok l.r) with
  | .error c => .error c
  | .ok r =>
    match pointAdd p a l.q l.q with
    | .error c => .error c
    | .ok q => .ok { r := r, q := q, i := l.i + 1 }

/-- A number of iterations; the first fault ends them (42_scalar_mul.md R153). -/
def ladderRun (p a k : Nat) : Nat → Ladder → Except FaultCode Ladder
  | 0, l => .ok l
  | n + 1, l =>
    match ladderBit p a k l with
    | .error c => .error c
    | .ok l' => ladderRun p a k n l'

/-- The engine's state before its first iteration: R = INF, Q = P, i = 0 (42_scalar_mul.md R151). -/
def ladderStart (P : Point) : Ladder := { r := .inf, q := P, i := 0 }

/-- The point the ladder runs on: P, or its negation when NEG = 1 (42_scalar_mul.md R150). -/
def ladderPoint (p : Nat) (neg : Bool) (P : Point) : Point := if neg then pointNeg p P else P

/-- The body of PMUL (42_scalar_mul.md R150): INF for a zero scalar or for INF, else the ladder over
the bitlen(k) bits of the magnitude k. -/
def scalarMul (p a : Nat) (neg : Bool) (k : Nat) (P : Point) : Except FaultCode Point :=
  if k = 0 ∨ P = .inf then .ok .inf
  else
    match ladderRun p a k (bitlen k) (ladderStart (ladderPoint p neg P)) with
    | .error c => .error c
    | .ok l => .ok l.r

end Sys2Proof.Machine
end

