-- ==== Sys2Proof/Machine/Operands.lean ====
section
/-! DEFINITION. How a command reads its operands: field registers, point registers, the selected
modulus, the checks of LOCK and of the modulus in the order of 30_encoding.md R87, and which register
a command has as its destination. -/

namespace Sys2Proof.Machine

/-- F[i]: F0 reads 0 (10_state.md R21). -/
def State.readF (s : State) (i : FReg) : Nat := if i = 0 then 0 else s.f[i]

/-- A point register as a Point value: INF when inf = 1, whatever x and y hold (10_state.md R23). -/
def PtReg.point (r : PtReg) : Point := if r.inf then .inf else .affine r.x r.y

/-- PT[i] (10_state.md R23). -/
def State.readPt (s : State) (i : PReg) : Point := s.pt[i].point

/-- The modulus MSEL selects (30_encoding.md R84). -/
def State.modulus (s : State) : Modulus → Nat
  | .p => s.consts.cp
  | .n => s.consts.cn
  | .g => s.mg

/-- MSEL = p and n read a curve constant (30_encoding.md R84, R87). -/
def needsLock : Modulus → Bool
  | .p => true
  | .n => true
  | .g => false

/-- The modulus of a modular command after its checks: E_CFG, then E_MOD (30_encoding.md R87). -/
def State.checkedModulus (s : State) (sel : Modulus) : Except FaultCode Nat :=
  if needsLock sel && !s.ctrl.lock then .error .cfg
  else if s.modulus sel < 2 then .error .mod
  else .ok (s.modulus sel)

/-- The modulus CP of a point command after the same checks (30_encoding.md R87). -/
def State.checkedPrime (s : State) : Except FaultCode Nat :=
  if !s.ctrl.lock then .error .cfg
  else if s.consts.cp < 2 then .error .mod
  else .ok s.consts.cp

/-- The check of PLDG, which reads curve constants and no modulus (41_point.md R129). -/
def State.checkedLock (s : State) : Except FaultCode Unit :=
  if !s.ctrl.lock then .error .cfg else .ok ()

/-- The destination register of a command (10_state.md R22, R25). -/
inductive Dest where
  | none
  | f (d : FReg)
  | pt (d : PReg)
deriving DecidableEq, Repr

/-- cmd.D as the register it names (30_encoding.md R85). NOP has none. -/
def destOf : Instr → Dest
  | .nop => .none
  | .madd _ d _ _ => .f d
  | .msub _ d _ _ => .f d
  | .mmul _ d _ _ => .f d
  | .minv _ d _ => .f d
  | .mpow _ d _ _ => .f d
  | .fmov d _ => .f d
  | .padd d _ _ => .pt d
  | .pdbl d _ => .pt d
  | .pneg d _ => .pt d
  | .pmul _ d _ _ => .pt d
  | .pset d _ _ => .pt d
  | .pinf d => .pt d
  | .pldg d => .pt d
  | .pgetx d _ => .f d
  | .pgety d _ => .f d
  | .pmov d _ => .pt d

end Sys2Proof.Machine
end

