-- ==== Sys2Proof/Machine/Flags.lean ====
section
/-! DEFINITION. The control and status registers as words, the result-is-infinity flag, the
write-1-to-clear rule and the interrupt line (10_state.md R31 to R39, 60_exceptions.md R180, R189).
Reserved bits read 0 (R42). -/

namespace Sys2Proof.Machine

/-- The four bits of a fault code in STATUS[7:4] (60_exceptions.md R180). -/
def FaultCode.bits : FaultCode → BitVec 4
  | .noFault => 0x0
  | .illegal => 0x1
  | .cfg => 0x2
  | .mod => 0x3
  | .invZero => 0x4
  | .infCoord => 0x5

/-- RINF of a written Point value (10_state.md R39). -/
def Point.isInf : Point → Bool
  | .inf => true
  | .affine _ _ => false

/-- A word whose bit n is b and whose other bits are 0. -/
def bitAt (n : Nat) (b : Bool) : Word32 := (BitVec.ofBool b).setWidth 32 <<< n

/-- STATUS as the host reads it (10_state.md R34). -/
def Status.word (t : Status) : Word32 :=
  bitAt 0 t.busy ||| bitAt 1 t.done ||| bitAt 2 t.fault ||| bitAt 3 t.rinf |||
    t.fcode.bits.setWidth 32 <<< 4 ||| bitAt 8 t.cmdDrop ||| bitAt 9 t.wrDrop

/-- CTRL as the host reads it: SRST reads 0 (10_state.md R33). -/
def Ctrl.word (c : Ctrl) : Word32 := bitAt 0 c.ie ||| bitAt 1 c.lock

/-- ID, "ECC1" (10_state.md R31). -/
def idWord : Word32 := 0x45434331

/-- PARAM: W in [15:0], NF in [23:16], NP in [31:24] (10_state.md R32). -/
def State.paramWord (s : State) : Word32 :=
  BitVec.ofNat 32 (s.params.width % 2 ^ 16 + Config.numF * 2 ^ 16 + Config.numPt * 2 ^ 24)

/-- PTINF: bit i is PTi.inf, bits [31:8] read 0 (10_state.md R38). -/
def State.ptinfWord (s : State) : Word32 :=
  bitAt 0 s.pt[0].inf ||| bitAt 1 s.pt[1].inf ||| bitAt 2 s.pt[2].inf ||| bitAt 3 s.pt[3].inf |||
    bitAt 4 s.pt[4].inf ||| bitAt 5 s.pt[5].inf ||| bitAt 6 s.pt[6].inf ||| bitAt 7 s.pt[7].inf

/-- The interrupt line IRQ = IE ∧ (DONE ∨ FAULT), at every moment (60_exceptions.md R189, R190). -/
def State.irq (s : State) : Bool := s.ctrl.ie && (s.status.done || s.status.fault)

/-- STATUS after a host write of v: each write-1-to-clear bit whose position in v is 1 is cleared,
BUSY, RINF and FCODE stay (10_state.md R35). -/
def Status.cleared (t : Status) (v : Word32) : Status :=
  { t with
    done := t.done && !v.getLsbD 1
    fault := t.fault && !v.getLsbD 2
    cmdDrop := t.cmdDrop && !v.getLsbD 8
    wrDrop := t.wrDrop && !v.getLsbD 9 }

end Sys2Proof.Machine
end

