-- ==== Sys2Proof/Machine/Ops.lean ====
section
/-! DEFINITION. The named operations on the state: writing a register, ending a command, entering a
fault and returning from it, accepting and dropping a command, drawing free values, and the two
resets. -/

namespace Sys2Proof.Machine

/-- What a register keeps of a value: its low W bits (00_scope.md R10, "only a write to a register
narrows"). -/
def State.narrow (s : State) (v : Nat) : Nat := v % 2 ^ s.params.width

/-- F[d] <- v; a value written to F0 is discarded (10_state.md R21). -/
def State.writeF (s : State) (d : FReg) (v : Nat) : State :=
  if d = 0 then s else { s with f := s.f.set d (s.narrow v) }

/-- The register contents a Point value is written as: INF as inf = 1, x = 0, y = 0 (10_state.md
R24). -/
def State.ptReg (s : State) : Point → PtReg
  | .inf => { inf := true, x := 0, y := 0 }
  | .affine x y => { inf := false, x := s.narrow x, y := s.narrow y }

/-- PT[d] <- P (10_state.md R24). -/
def State.writePt (s : State) (d : PReg) (P : Point) : State :=
  { s with pt := s.pt.set d (s.ptReg P) }

/-- A command ends without fault: BUSY <- 0, DONE <- 1, RINF as given (10_state.md R39, R40); the
engine's state is gone. -/
def State.endDone (s : State) (rinf : Bool) : State :=
  { s with
    status := { s.status with busy := false, done := true, rinf := rinf }
    ladder := none }

/-- A command faults with code c, in one indivisible update (60_exceptions.md R182). -/
def State.takeFault (s : State) (c : FaultCode) : State :=
  { s with
    status := { s.status with busy := false, fault := true, fcode := c }
    fcmd := s.latched
    ladder := none }

/-- A host write to STATUS; with bit 2 set it is the return from a fault: FAULT <- 0, nothing is
restored, FCODE and FCMD stay (60_exceptions.md R185, 10_state.md R35). -/
def State.statusWrite (s : State) (v : Word32) : State := { s with status := s.status.cleared v }

/-- The end of a command with an F destination: its value written, RINF <- 0 (40_modular.md R100), or
its fault taken. -/
def State.finishF (s : State) (d : FReg) : Except FaultCode Nat → Host.Outcome State Fault Refusal
  | .ok v => .next ((s.writeF d v).endDone false)
  | .error c => .next (s.takeFault c)

/-- The end of a command with a PT destination: its Point written, RINF <- its inf bit (41_point.md
R120), or its fault taken. -/
def State.finishPt (s : State) (d : PReg) : Except FaultCode Point → Host.Outcome State Fault Refusal
  | .ok P => .next ((s.writePt d P).endDone P.isInf)
  | .error c => .next (s.takeFault c)

/-- A command word is accepted (10_state.md R36). -/
def State.acceptCmd (s : State) (c : Word32) : State :=
  { s with
    cmd := c
    latched := c
    ladder := none
    status := { s.status with done := false, busy := true } }

/-- A CMD write is dropped (10_state.md R36). -/
def State.dropCmd (s : State) : State := { s with status := { s.status with cmdDrop := true } }

/-- A host write of c to CMD: accepted exactly when BUSY = 0 and FAULT = 0 (10_state.md R36,
60_exceptions.md R184). -/
def State.cmdWrite (s : State) (c : Word32) : State :=
  if !s.status.busy && !s.status.fault then s.acceptCmd c else s.dropCmd

/-- A data-window or PTINF write is dropped (20_memory.md R68, R69). -/
def State.dropData (s : State) : State := { s with status := { s.status with wrDrop := true } }

/-- The n-th free value of an operand register, W bits of it. -/
def State.freeValue (s : State) (n : Nat) : Nat :=
  s.narrow (Config.unspecifiedValue (s.draws + n))

/-- A point register with nothing specified: three draws from the n-th on. -/
def State.freePtReg (s : State) (n : Nat) : PtReg :=
  { inf := Config.unspecifiedFlag (s.draws + n), x := s.freeValue (n + 1), y := s.freeValue (n + 2) }

/-- A destination register becomes unspecified: the whole PT register for a point destination
(70_reset_and_hazards.md R212). F0 stays hardwired to zero (10_state.md R21). -/
def State.unspecify (s : State) : Dest → State
  | .none => s
  | .f d => if d = 0 then s else { s with f := s.f.set d (s.freeValue 0), draws := s.draws + 1 }
  | .pt d => { s with pt := s.pt.set d (s.freePtReg 0), draws := s.draws + 3 }

/-- The destination of the command in progress: none while Idle, and none for an illegal word, which
names no register (log entry 12). -/
def State.destInProgress (s : State) : Dest :=
  if s.status.busy then
    match decode s.latched with
    | .ok i => destOf i
    | .error _ => .none
  else .none

/-- CTRL, STATUS, CMD, FCMD and the hidden state as both resets leave them (10_state.md R41,
70_reset_and_hazards.md R212). -/
def State.clearControl (s : State) : State :=
  { s with
    ctrl := State.reset.ctrl
    status := State.reset.status
    cmd := State.reset.cmd
    fcmd := State.reset.fcmd
    latched := State.reset.latched
    ladder := State.reset.ladder }

/-- Soft reset (70_reset_and_hazards.md R212): the data registers stay, but for the destination of a
command in progress. -/
def State.softReset (s : State) : State := (s.unspecify s.destInProgress).clearControl

/-- A host write of v to CTRL: SRST first (log entry 11), else IE <- v[0] and LOCK is set by v[1] and
never cleared (10_state.md R33). -/
def State.ctrlWrite (s : State) (v : Word32) : State :=
  if v.getLsbD 2 then s.softReset
  else { s with ctrl := { ie := v.getLsbD 0, lock := s.ctrl.lock || v.getLsbD 1 } }

/-- Hardware reset during a run (70_reset_and_hazards.md R210, 10_state.md R41): control and status
as after reset, F0 = 0, every other datapath register a free value. -/
def State.hardReset (s : State) : State :=
  { s.clearControl with
    f := Vector.ofFn fun i => if i = 0 then 0 else s.freeValue i.val
    pt := Vector.ofFn fun i => s.freePtReg (16 + 3 * i.val)
    consts :=
      { cp := s.freeValue 40, ca := s.freeValue 41, cb := s.freeValue 42, cgx := s.freeValue 43,
        cgy := s.freeValue 44, cn := s.freeValue 45, ch := s.freeValue 46 }
    mg := s.freeValue 47
    draws := s.draws + 48 }

end Sys2Proof.Machine
end

