-- ==== Sys2Proof/Machine/Bus.lean ====
section
/-! DEFINITION. The host's side: the register map, the operand windows and what each access does
(20_memory.md). -/

namespace Sys2Proof.Machine

/-- The curve constant windows in the order of the map. -/
inductive ConstReg where
  | cp
  | ca
  | cb
  | cgx
  | cgy
  | cn
  | ch
deriving DecidableEq, Repr

/-- A W-bit register that has an operand window (20_memory.md R62). -/
inductive WinReg where
  | const (c : ConstReg)
  | mg
  | f (i : FReg)
  | ptx (i : PReg)
  | pty (i : PReg)
deriving DecidableEq, Repr

/-- What an aligned offset of the map names (20_memory.md R62): a control register, word j of a
window, or a reserved offset. -/
inductive Target where
  | id
  | param
  | ctrl
  | status
  | cmd
  | fcmd
  | ptinf
  | window (r : WinReg) (j : Nat)
  | reserved
deriving DecidableEq, Repr

/-- The first offset past the map: the block decodes 32 KiB (20_memory.md R61). -/
def mapSize : Nat := 0x8000

/-- The register at a slot of the windows 0x1000–0x1FFF, 0x200 bytes each. -/
def constSlot : Nat → WinReg
  | 0 => .const .cp
  | 1 => .const .ca
  | 2 => .const .cb
  | 3 => .const .cgx
  | 4 => .const .cgy
  | 5 => .const .cn
  | 6 => .const .ch
  | _ => .mg

/-- The control register at a word of 0x0000–0x001B. -/
def controlSlot : Nat → Target
  | 0 => .id
  | 1 => .param
  | 2 => .ctrl
  | 3 => .status
  | 4 => .cmd
  | 5 => .fcmd
  | 6 => .ptinf
  | _ => .reserved

/-- The register map (20_memory.md R62) at an aligned offset. -/
def target (off : Nat) : Target :=
  let j := off % 0x200 / 4
  if off < 0x1000 then controlSlot (off / 4)
  else if off < 0x2000 then .window (constSlot ((off - 0x1000) / 0x200)) j
  else if off < 0x4000 then .window (.f (Fin.ofNat 16 ((off - 0x2000) / 0x200))) j
  else if off < 0x6000 then
    if off % 0x400 < 0x200 then .window (.ptx (Fin.ofNat 8 ((off - 0x4000) / 0x400))) j
    else .window (.pty (Fin.ofNat 8 ((off - 0x4000) / 0x400))) j
  else .reserved

/-- A curve constant. -/
def CurveParams.get (k : CurveParams) : ConstReg → Nat
  | .cp => k.cp
  | .ca => k.ca
  | .cb => k.cb
  | .cgx => k.cgx
  | .cgy => k.cgy
  | .cn => k.cn
  | .ch => k.ch

/-- The curve constants with one of them replaced. -/
def CurveParams.put (k : CurveParams) (v : Nat) : ConstReg → CurveParams
  | .cp => { k with cp := v }
  | .ca => { k with ca := v }
  | .cb => { k with cb := v }
  | .cgx => { k with cgx := v }
  | .cgy => { k with cgy := v }
  | .cn => { k with cn := v }
  | .ch => { k with ch := v }

/-- The value of a windowed register; F0 reads 0, and the coordinates of a PT register read as stored
whatever its inf bit (10_state.md R21, R25). -/
def State.regValue (s : State) : WinReg → Nat
  | .const c => s.consts.get c
  | .mg => s.mg
  | .f i => s.readF i
  | .ptx i => s.pt[i].x
  | .pty i => s.pt[i].y

/-- A windowed register written; a write to F0 is ignored (10_state.md R21). -/
def State.putReg (s : State) (v : Nat) : WinReg → State
  | .const c => { s with consts := s.consts.put (s.narrow v) c }
  | .mg => { s with mg := s.narrow v }
  | .f i => s.writeF i v
  | .ptx i => { s with pt := s.pt.set i { s.pt[i] with x := s.narrow v } }
  | .pty i => { s with pt := s.pt.set i { s.pt[i] with y := s.narrow v } }

/-- The lowest bit position of window word j: word 127 holds bits [31:0] (20_memory.md R64). -/
def wordLow (j : Nat) : Nat := 4064 - 32 * j

/-- Word j of a window onto the value v, V[4095−32j : 4064−32j] (20_memory.md R64). -/
def windowWord (v j : Nat) : Word32 := BitVec.ofNat 32 (v >>> wordLow j)

/-- The value v with word j replaced by x, all other bits unchanged (20_memory.md R64); the register
then drops the bits at W and above. -/
def splice (v j : Nat) (x : Word32) : Nat :=
  ((v >>> (wordLow j + 32)) <<< (wordLow j + 32)) + (x.toNat <<< wordLow j) + v % 2 ^ wordLow j

/-- The registers whose contents the sequencer may be using while Busy: F, PT (20_memory.md R68). -/
def WinReg.usedByCommands : WinReg → Bool
  | .const _ => false
  | .mg => false
  | .f _ => true
  | .ptx _ => true
  | .pty _ => true

/-- The registers CTRL.LOCK protects (20_memory.md R69): MG is not one. -/
def WinReg.lockable : WinReg → Bool
  | .const _ => true
  | .mg => false
  | .f _ => false
  | .ptx _ => false
  | .pty _ => false

/-- The block drives a word on the bus. -/
def State.drive (s : State) (w : Word32) : State := { s with busData := some w }

/-- A read while Busy that returns an unspecified word (20_memory.md R68): a fresh free value. -/
def State.driveUnspecified (s : State) : State :=
  { s with busData := some (Config.busyRead s.draws), draws := s.draws + 1 }

/-- A read of an aligned offset with all lanes (20_memory.md R62, R63, R67, R68). -/
def State.readTarget (s : State) : Target → State
  | .id => s.drive idWord
  | .param => s.drive s.paramWord
  | .ctrl => s.drive s.ctrl.word
  | .status => s.drive s.status.word
  | .cmd => s.drive s.cmd
  | .fcmd => s.drive s.fcmd
  | .ptinf => if s.status.busy then s.driveUnspecified else s.drive s.ptinfWord
  | .window r j =>
    if s.status.busy && r.usedByCommands then s.driveUnspecified
    else s.drive (windowWord (s.regValue r) j)
  | .reserved => s.drive 0

/-- A host write of v to PTINF: bit i is PTi.inf (10_state.md R38). -/
def State.ptinfWrite (s : State) (v : Word32) : State :=
  if s.status.busy then s.dropData
  else { s with pt := Vector.ofFn fun i : PReg => { s.pt[i] with inf := v.getLsbD i } }

/-- A host write of v to word j of a window: dropped while Busy, and to a curve constant while LOCK = 1
(20_memory.md R64, R68, R69). -/
def State.windowWrite (s : State) (r : WinReg) (j : Nat) (v : Word32) : State :=
  if s.status.busy || (s.ctrl.lock && r.lockable) then s.dropData
  else s.putReg (splice (s.regValue r) j v) r

/-- A write to an aligned offset with all lanes (20_memory.md R62, R63, R67). -/
def State.writeTarget (s : State) (v : Word32) : Target → State
  | .id => s
  | .param => s
  | .ctrl => s.ctrlWrite v
  | .status => s.statusWrite v
  | .cmd => s.cmdWrite v
  | .fcmd => s
  | .ptinf => s.ptinfWrite v
  | .window r j => s.windowWrite r j v
  | .reserved => s

/-- The only access the block performs is an aligned word with all four lanes (20_memory.md R66). -/
def performed (off : Nat) (lanes : BitVec 4) : Bool := off % 4 == 0 && lanes == 0xF

/-- An access at an offset of the map. One that is not performed reads 0 or is ignored (20_memory.md
R66). -/
def State.accessOffset (s : State) (off : Nat) (a : Access) : State :=
  match a.kind with
  | .read => if performed off a.lanes then s.readTarget (target off) else s.drive 0
  | .write v => if performed off a.lanes then s.writeTarget v (target off) else s

/-- The block decodes the addresses BASE + 0x0000–0x7FFF (20_memory.md R61). -/
def State.decodes (s : State) (addr : Nat) : Bool :=
  s.params.base ≤ addr && addr < s.params.base + mapSize

/-- One access of the host. An address outside the map belongs to another device and stops the model
(log entry 10). -/
def hostAccess (a : Access) (s : State) : Host.Outcome State Fault Refusal :=
  if s.decodes a.addr then .next (s.accessOffset (a.addr - s.params.base) a)
  else .fault (.outsideRegisterMap a.addr)

end Sys2Proof.Machine
end

