-- ==== Sys2Proof/Machine/Modular.lean ====
section
/-! DEFINITION. The modular commands and the register copy (40_modular.md R101 to R106). Each reads all
its sources before it writes (R100); raw sources may be at least the modulus. -/

namespace Sys2Proof.Machine

/-- MADD (40_modular.md R101): F[D] <- (F[A] + F[B]) mod m. -/
def execMadd (sel : Modulus) (d a b : FReg) (s : State) : Host.Outcome State Fault Refusal :=
  s.finishF d ((s.checkedModulus sel).map fun m => residue ((s.readF a : Int) + s.readF b) m)

/-- MSUB (40_modular.md R102): F[D] <- (F[A] − F[B]) mod m, the difference exact and signed. -/
def execMsub (sel : Modulus) (d a b : FReg) (s : State) : Host.Outcome State Fault Refusal :=
  s.finishF d ((s.checkedModulus sel).map fun m => residue ((s.readF a : Int) - s.readF b) m)

/-- MMUL (40_modular.md R103): F[D] <- (F[A] · F[B]) mod m, for every m ≥ 2. -/
def execMmul (sel : Modulus) (d a b : FReg) (s : State) : Host.Outcome State Fault Refusal :=
  s.finishF d ((s.checkedModulus sel).map fun m => residue ((s.readF a : Int) * s.readF b) m)

/-- MINV (40_modular.md R104): F[D] <- Inv(F[A], m), or E_INV_ZERO. -/
def execMinv (sel : Modulus) (d a : FReg) (s : State) : Host.Outcome State Fault Refusal :=
  s.finishF d ((s.checkedModulus sel).bind fun m => inv (s.readF a) m)

/-- MPOW (40_modular.md R105): F[D] <- F[A] ^ F[B] mod m, the exponent raw, anything to the 0 is 1. -/
def execMpow (sel : Modulus) (d a b : FReg) (s : State) : Host.Outcome State Fault Refusal :=
  s.finishF d ((s.checkedModulus sel).map fun m => powMod (s.readF a) (s.readF b) m)

/-- FMOV (40_modular.md R106): F[D] <- F[A], raw; no lock, no modulus. -/
def execFmov (d a : FReg) (s : State) : Host.Outcome State Fault Refusal :=
  s.finishF d (.ok (s.readF a))

end Sys2Proof.Machine
end

