-- ==== Sys2Proof/Machine/PointOps.lean ====
section
/-! DEFINITION. The point commands but for PMUL: adder, doubler, negation, moves (41_point.md R121 to
R132). -/

namespace Sys2Proof.Machine

/-- PADD (41_point.md R121): PT[D] <- Add(PT[A], PT[B]). -/
def execPadd (d a b : PReg) (s : State) : Host.Outcome State Fault Refusal :=
  s.finishPt d (s.checkedPrime.bind fun p => pointAdd p s.consts.ca (s.readPt a) (s.readPt b))

/-- PDBL (41_point.md R122): PT[D] <- Add(PT[A], PT[A]). -/
def execPdbl (d a : PReg) (s : State) : Host.Outcome State Fault Refusal :=
  s.finishPt d (s.checkedPrime.bind fun p => pointAdd p s.consts.ca (s.readPt a) (s.readPt a))

/-- PNEG (41_point.md R123): x copied raw, y <- (p − y) mod p; INF stays INF. -/
def execPneg (d a : PReg) (s : State) : Host.Outcome State Fault Refusal :=
  s.finishPt d (s.checkedPrime.map fun p => pointNeg p (s.readPt a))

/-- PSET (41_point.md R127): PT[D] <- Affine(F[A], F[B]), raw, unchecked. -/
def execPset (d : PReg) (a b : FReg) (s : State) : Host.Outcome State Fault Refusal :=
  s.finishPt d (.ok (.affine (s.readF a) (s.readF b)))

/-- PINF (41_point.md R128): PT[D] <- INF. -/
def execPinf (d : PReg) (s : State) : Host.Outcome State Fault Refusal :=
  s.finishPt d (.ok .inf)

/-- PLDG (41_point.md R129): PT[D] <- Affine(CGX, CGY), under LOCK, no modulus check. -/
def execPldg (d : PReg) (s : State) : Host.Outcome State Fault Refusal :=
  s.finishPt d (s.checkedLock.map fun _ => .affine s.consts.cgx s.consts.cgy)

/-- A coordinate of a Point, or E_INF_COORD for INF (41_point.md R130, R131). -/
def Point.coord (pick : Nat → Nat → Nat) : Point → Except FaultCode Nat
  | .inf => .error .infCoord
  | .affine x y => .ok (pick x y)

/-- PGETX (41_point.md R130): F[D] <- PT[A].x. -/
def execPgetx (d : FReg) (a : PReg) (s : State) : Host.Outcome State Fault Refusal :=
  s.finishF d ((s.readPt a).coord fun x _ => x)

/-- PGETY (41_point.md R131): F[D] <- PT[A].y. -/
def execPgety (d : FReg) (a : PReg) (s : State) : Host.Outcome State Fault Refusal :=
  s.finishF d ((s.readPt a).coord fun _ y => y)

/-- PMOV (41_point.md R132): PT[D] <- PT[A] as a Point value, so INF is written with x = y = 0. -/
def execPmov (d a : PReg) (s : State) : Host.Outcome State Fault Refusal :=
  s.finishPt d (.ok (s.readPt a))

end Sys2Proof.Machine
end

