-- ==== Sys2Proof/Machine/Scalar.lean ====
section
/-! DEFINITION. The scalar-multiply engine (42_scalar_mul.md): PMUL as one command, and the engine's
hidden progress, one ladder iteration at a time. -/

namespace Sys2Proof.Machine

/-- PMUL (42_scalar_mul.md R150): PT[D] <- ±F[B] · PT[A]. The ladder runs to its end inside this one
step (70_reset_and_hazards.md R219). -/
def execPmul (neg : Bool) (d a : PReg) (b : FReg) (s : State) : Host.Outcome State Fault Refusal :=
  s.finishPt d
    (s.checkedPrime.bind fun p => scalarMul p s.consts.ca neg (s.readF b) (s.readPt a))

/-- One turn of the engine inside a PMUL (10_state.md R30 (b), 42_scalar_mul.md R151, R153). It loads
R, Q and i at its first turn and runs one iteration at each later one; a fault of an Add ends the
command at once. A PMUL that fails its checks, or that has INF or a zero scalar, makes no iteration.
After the last iteration the engine waits for the sequencer to end the command (log entry 9). -/
def engineStep (neg : Bool) (a : PReg) (b : FReg) (s : State) : State :=
  match s.checkedPrime with
  | .error _ => s
  | .ok p =>
    if s.readF b = 0 ∨ s.readPt a = .inf then s
    else
      match s.ladder with
      | none => { s with ladder := some (ladderStart (ladderPoint p neg (s.readPt a))) }
      | some l =>
        if l.i < bitlen (s.readF b) then
          match ladderBit p s.consts.ca (s.readF b) l with
          | .error c => s.takeFault c
          | .ok l' => { s with ladder := some l' }
        else s

/-- The engine's turn: it moves only while a PMUL is in progress. -/
def engineTurn (s : State) : State :=
  if s.status.busy then
    match decode s.latched with
    | .ok (.pmul neg _ a b) => engineStep neg a b s
    | .ok _ => s
    | .error _ => s
  else s

end Sys2Proof.Machine
end

