-- ==== Sys2Proof/Machine/System.lean ====
section
/-! DEFINITION. NOP (43_system.md R170), the one command that is not arithmetic. -/

namespace Sys2Proof.Machine

/-- NOP: nothing is read or computed; it completes like any command (43_system.md R170). -/
def execNop (s : State) : Host.Outcome State Fault Refusal := .next (s.endDone false)

end Sys2Proof.Machine
end

