-- ==== Sys2Proof/Machine/Dispatch.lean ====
section
/-! DEFINITION. One arm for each command of the opcode map (30_encoding.md R85). -/

namespace Sys2Proof.Machine

/-- The command in progress is executed and ended, in one atomic step (70_reset_and_hazards.md
R219). -/
def exec (i : Instr) (s : State) : Host.Outcome State Fault Refusal :=
  match i with
  | .nop => Sys2Proof.Machine.execNop s
  | .madd sel d a b => Sys2Proof.Machine.execMadd sel d a b s
  | .msub sel d a b => Sys2Proof.Machine.execMsub sel d a b s
  | .mmul sel d a b => Sys2Proof.Machine.execMmul sel d a b s
  | .minv sel d a => Sys2Proof.Machine.execMinv sel d a s
  | .mpow sel d a b => Sys2Proof.Machine.execMpow sel d a b s
  | .fmov d a => Sys2Proof.Machine.execFmov d a s
  | .padd d a b => Sys2Proof.Machine.execPadd d a b s
  | .pdbl d a => Sys2Proof.Machine.execPdbl d a s
  | .pneg d a => Sys2Proof.Machine.execPneg d a s
  | .pmul neg d a b => Sys2Proof.Machine.execPmul neg d a b s
  | .pset d a b => Sys2Proof.Machine.execPset d a b s
  | .pinf d => Sys2Proof.Machine.execPinf d s
  | .pldg d => Sys2Proof.Machine.execPldg d s
  | .pgetx d a => Sys2Proof.Machine.execPgetx d a s
  | .pgety d a => Sys2Proof.Machine.execPgety d a s
  | .pmov d a => Sys2Proof.Machine.execPmov d a s

end Sys2Proof.Machine
end

