-- ==== Sys2Proof/Machine/Sequencer.lean ====
section
/-! DEFINITION. The agents' turns: the sequencer decodes and executes the command in progress, the
engine makes hidden progress, the host accesses a register, the reset input is asserted. -/

namespace Sys2Proof.Machine

/-- The sequencer's turn: the accepted word is decoded and executed; an illegal word ends with
E_ILLEGAL and writes nothing (30_encoding.md R86, R87). While Idle there is nothing to do: the block
waits for the host (70_reset_and_hazards.md R210). -/
def sequencerTurn (s : State) : Host.Outcome State Fault Refusal :=
  if s.status.busy then
    match decode s.latched with
    | .ok i => exec i s
    | .error _ => .next (s.takeFault .illegal)
  else .next s

/-- One turn. Reset has priority: an access that coincides with it has no effect
(70_reset_and_hazards.md R211). -/
def takeTurn (t : Turn) (s : State) : Host.Outcome State Fault Refusal :=
  match t with
  | .host a => hostAccess a s
  | .sequencer => sequencerTurn s
  | .engine => .next (engineTurn s)
  | .reset _ => .next s.hardReset

/-- The next turn is the oldest one given; with none given it is the sequencer's, which makes every
accepted command end (weak fairness, 70_reset_and_hazards.md R219). -/
def advance (s : State) : Host.Outcome State Fault Refusal :=
  match s.turns with
  | [] => sequencerTurn s
  | t :: rest => takeTurn t { s with turns := rest }

/-- The state in which the word w has just been accepted, with nothing else to happen first. -/
def State.withAccepted (s : State) (w : Word32) : State := { s.acceptCmd w with turns := [] }

end Sys2Proof.Machine
end

