-- ==== Sys2Proof/Machine/Step.lean ====
section
/-! DEFINITION. One step of the machine, and the state whose next step runs a given word. -/

namespace Sys2Proof.Machine

/-- One step: a next state, or a fault of the model for an access outside the register map. A fault of
a command is a next state (60_exceptions.md R182). -/
def step (s : State) : Host.Outcome State Fault Refusal := advance s

/-- The state whose very next step runs the word w. The block fetches nothing (10_state.md R29); the
word it runs is the one a host write to CMD had accepted, so this is the state right after that
acceptance (10_state.md R36, log entry 7). -/
def State.withFetchWord (s : State) (nbits w : Nat) : State := s.withAccepted (tableWord nbits w)

end Sys2Proof.Machine
end

