-- ==== Sys2Proof/Machine/Directives.lean ====
section
/-! DEFINITION. The host's bus sequences that the spec's programs are written in (30_encoding.md R91),
each as the turns it asks for. They are no commands: the machine runs without them. -/

namespace Sys2Proof.Machine

/-- The offset of a register's window (20_memory.md R62). -/
def WinReg.offset : WinReg → Nat
  | .const .cp => 0x1000
  | .const .ca => 0x1200
  | .const .cb => 0x1400
  | .const .cgx => 0x1600
  | .const .cgy => 0x1800
  | .const .cn => 0x1A00
  | .const .ch => 0x1C00
  | .mg => 0x1E00
  | .f i => 0x2000 + 0x200 * i.val
  | .ptx i => 0x4000 + 0x400 * i.val
  | .pty i => 0x4200 + 0x400 * i.val

/-- MemRead(BASE + off, 4) (00_scope.md R13). -/
def State.memRead (s : State) (off : Nat) : Turn :=
  .host { addr := s.params.base + off, lanes := 0xF, kind := .read }

/-- MemWrite(BASE + off, 4, v) (00_scope.md R13). -/
def State.memWrite (s : State) (off : Nat) (v : Word32) : Turn :=
  .host { addr := s.params.base + off, lanes := 0xF, kind := .write v }

/-- The directives of 30_encoding.md R91. -/
inductive Directive where
  /-- `.wr R, v` -/
  | wr (r : WinReg) (v : Nat)
  /-- `.inf i, v` -/
  | inf (i : PReg) (v : Bool)
  /-- `.lock` -/
  | lock
  /-- `.wait` -/
  | wait
  /-- `.rd R` -/
  | rd (r : WinReg)
  /-- a line that holds a command -/
  | command (i : Instr)
deriving DecidableEq, Repr

/-- PTINF with bit i set to v, the write half of `.inf i, v`. -/
def State.ptinfWith (s : State) (i : PReg) (v : Bool) : Word32 :=
  let bit : Word32 := 1#32 <<< i.val
  if v then s.ptinfWord ||| bit else s.ptinfWord &&& ~~~bit

/-- The turns of a directive issued in the state s, which is Idle (30_encoding.md R91). `.wait` gives
the sequencer its turn and then reads a STATUS with BUSY = 0. -/
def Directive.turns (s : State) : Directive → List Turn
  | .wr r v => (List.range 128).map fun j => s.memWrite (r.offset + 4 * j) (windowWord v j)
  | .inf i v => [s.memRead 0x0018, s.memWrite 0x0018 (s.ptinfWith i v)]
  | .lock => [s.memWrite 0x0008 0x00000002]
  | .wait => [.sequencer, s.memRead 0x000C]
  | .rd r => (List.range 128).map fun j => s.memRead (r.offset + 4 * j)
  | .command i => [s.memWrite 0x0010 (encode i)]

end Sys2Proof.Machine
end

