-- ==== Sys2Proof/Safety.lean ====
section
/-! DEFINITION. The terms the statements are made in: the invariant of a good state, how a command may
end and what it leaves alone, what a command needs before it runs, and the elliptic curve the block's
points stand for. -/

namespace Sys2Proof.Machine

/-- The engine's state l is the one that the ladder of the PMUL in progress reaches after l.i
iterations (42_scalar_mul.md R151). -/
def State.LadderAt (s : State) (l : Ladder) : Prop :=
  ∃ neg d a b, decode s.latched = .ok (.pmul neg d a b) ∧ s.ctrl.lock = true ∧ 2 ≤ s.consts.cp ∧
    s.readF b ≠ 0 ∧ s.readPt a ≠ .inf ∧ l.i ≤ bitlen (s.readF b) ∧
    ladderRun s.consts.cp s.consts.ca (s.readF b) l.i
      (ladderStart (ladderPoint s.consts.cp neg (s.readPt a))) = .ok l

/-- What every state of a run satisfies. -/
structure State.Inv (s : State) : Prop where
  /-- 2 ≤ W ≤ 4096 (00_scope.md R7). -/
  legal : s.params.Legal
  /-- Every operand register holds a value below 2^W (00_scope.md R7, 10_state.md R20). -/
  fits : ∀ r : WinReg, s.regValue r < 2 ^ s.params.width
  /-- The storage behind F0 is zero (10_state.md R21). -/
  f0 : s.f[0] = 0
  /-- DONE and FAULT never read 1 together (10_state.md R40). -/
  oneEnd : ¬ (s.status.done = true ∧ s.status.fault = true)
  /-- While Busy neither is set (10_state.md R36). -/
  busyClean : s.status.busy = true → s.status.done = false ∧ s.status.fault = false
  /-- FAULT = 1 comes with a fault code (60_exceptions.md R180, R182). -/
  faultCode : s.status.fault = true → s.status.fcode ≠ .noFault
  /-- The command in progress is the last accepted one (10_state.md R36). -/
  latchedIsCmd : s.status.busy = true → s.latched = s.cmd
  /-- The engine's state has no meaning while Idle (10_state.md R41): it is gone. -/
  idleLadder : s.status.busy = false → s.ladder = none
  /-- While a PMUL is under way the engine is where the ladder says. -/
  ladderOk : ∀ l, s.ladder = some l → s.LadderAt l

/-- What no command writes (43_system.md R171): the parameters, CTRL, CMD, the latched word, and the
model's own fields. -/
structure SameControl (s t : State) : Prop where
  params : t.params = s.params
  ctrl : t.ctrl = s.ctrl
  cmd : t.cmd = s.cmd
  latched : t.latched = s.latched
  busData : t.busData = s.busData
  turns : t.turns = s.turns
  draws : t.draws = s.draws

/-- A command ended without fault: of STATUS only BUSY, DONE and RINF are written (10_state.md R39,
R40), and FCMD stays. -/
structure EndedDone (s t : State) (rinf : Bool) : Prop where
  status : t.status = { s.status with busy := false, done := true, rinf := rinf }
  fcmd : t.fcmd = s.fcmd
  ladder : t.ladder = none

/-- A command ended with the fault c (60_exceptions.md R182): of STATUS only BUSY, FAULT and FCODE are
written, FCMD takes the command word, no data register is written. -/
structure EndedFault (s t : State) (c : FaultCode) : Prop where
  status : t.status = { s.status with busy := false, fault := true, fcode := c }
  fcmd : t.fcmd = s.latched
  ladder : t.ladder = none
  f : t.f = s.f
  pt : t.pt = s.pt
  consts : t.consts = s.consts
  mg : t.mg = s.mg
  control : SameControl s t

/-- Command i ends in s without fault, F[d] holds v (0 where d is F0), and nothing else changes but
BUSY, DONE and RINF <- 0. The block has no memory; every window but F[d]'s reads as before, since the
registers behind them are unchanged. -/
def CompletesF (i : Instr) (s : State) (d : FReg) (v : Nat) : Prop :=
  ∃ t, exec i s = .next t ∧ t.readF d = (if d = 0 then 0 else v) ∧
    (∀ j, j ≠ d → t.readF j = s.readF j) ∧ t.pt = s.pt ∧ t.consts = s.consts ∧ t.mg = s.mg ∧
    SameControl s t ∧ EndedDone s t false

/-- Command i ends in s without fault, PT[d] holds the Point P as it is written (INF as inf = 1,
x = y = 0, 10_state.md R24), RINF is its inf bit, and nothing else changes but BUSY and DONE. -/
def CompletesPt (i : Instr) (s : State) (d : PReg) (P : Point) : Prop :=
  ∃ t, exec i s = .next t ∧
    t.pt[d] = (match P with
      | .inf => { inf := true, x := 0, y := 0 }
      | .affine x y => { inf := false, x := x, y := y }) ∧
    (∀ j : PReg, j ≠ d → t.pt[j] = s.pt[j]) ∧ t.f = s.f ∧ t.consts = s.consts ∧ t.mg = s.mg ∧
    SameControl s t ∧ EndedDone s t P.isInf

/-- Command i ends in s with the fault c. -/
def FaultsWith (i : Instr) (s : State) (c : FaultCode) : Prop :=
  ∃ t, exec i s = .next t ∧ EndedFault s t c

/-- needs_lock(row, msel) of 30_encoding.md R87. -/
def lockNeeded : Instr → Bool
  | .madd sel _ _ _ => sel != .g
  | .msub sel _ _ _ => sel != .g
  | .mmul sel _ _ _ => sel != .g
  | .minv sel _ _ => sel != .g
  | .mpow sel _ _ _ => sel != .g
  | .padd _ _ _ => true
  | .pdbl _ _ => true
  | .pneg _ _ => true
  | .pmul _ _ _ _ => true
  | .pldg _ => true
  | .nop => false
  | .fmov _ _ => false
  | .pset _ _ _ => false
  | .pinf _ => false
  | .pgetx _ _ => false
  | .pgety _ _ => false
  | .pmov _ _ => false

/-- needs_modulus(row) and modulus(row, msel) of 30_encoding.md R87. -/
def modulusNeeded : Instr → Option Modulus
  | .madd sel _ _ _ => some sel
  | .msub sel _ _ _ => some sel
  | .mmul sel _ _ _ => some sel
  | .minv sel _ _ => some sel
  | .mpow sel _ _ _ => some sel
  | .padd _ _ _ => some .p
  | .pdbl _ _ => some .p
  | .pneg _ _ => some .p
  | .pmul _ _ _ _ => some .p
  | .pldg _ => none
  | .nop => none
  | .fmov _ _ => none
  | .pset _ _ _ => none
  | .pinf _ => none
  | .pgetx _ _ => none
  | .pgety _ _ => none
  | .pmov _ _ => none

/-- The checks of LOCK and of the modulus let command i run (30_encoding.md R87). -/
structure Ready (i : Instr) (s : State) : Prop where
  lock : lockNeeded i = true → s.ctrl.lock = true
  modulus : ∀ sel, modulusNeeded i = some sel → 2 ≤ s.modulus sel

/-- E_CFG: the command needs the lock and CTRL.LOCK = 0 (60_exceptions.md R181). -/
def LockFault (i : Instr) (s : State) : Prop :=
  lockNeeded i = true → s.ctrl.lock = false → FaultsWith i s .cfg

/-- E_MOD: the lock is as the command needs it and its modulus is below 2 (30_encoding.md R87). -/
def ModulusFault (i : Instr) (s : State) : Prop :=
  ∀ sel, modulusNeeded i = some sel → (lockNeeded i = true → s.ctrl.lock = true) →
    s.modulus sel < 2 → FaultsWith i s .mod

/-- Every accepted word whose fields satisfy P ends with E_ILLEGAL and writes nothing (30_encoding.md
R86). -/
def IllegalWhen (P : Fields → Prop) : Prop :=
  ∀ s : State, s.status.busy = true → P (Fields.ofWord s.latched) →
    ∃ t, sequencerTurn s = .next t ∧ EndedFault s t .illegal

/-- The OPC field of the command's word. -/
def opcode (i : Instr) : BitVec 6 := (Fields.ofWord (encode i)).opc

/-- (x, y) is the point of slope lam through (x1, y1) and a point with x = x2 (the last lines of Add,
41_point.md R121), canonical. -/
structure OnSlope (p x1 y1 x2 lam x y : Nat) : Prop where
  xLt : x < p
  yLt : y < p
  xEq : (x : Int) ≡ (lam : Int) * lam - x1 - x2 [ZMOD p]
  yEq : (y : Int) ≡ (lam : Int) * ((x1 : Int) - x) - y1 [ZMOD p]

/-- lam is num / den mod p, den invertible. -/
structure Slope (p : Nat) (num den : Int) (lam : Nat) : Prop where
  lamLt : lam < p
  quotient : (lam : Int) * den ≡ num [ZMOD p]

/-- The loop of 42_scalar_mul.md R151 as its pseudocode has it: for i in 0 .. bitlen(k) − 1, on the
pair (R, Q). -/
def ladderLoop (p a k : Nat) (P : Point) : Except FaultCode (Point × Point) :=
  (List.range (bitlen k)).foldlM
    (fun RQ i => do
      let R ← (if k.testBit i then pointAdd p a RQ.1 RQ.2 else .ok RQ.1)
      let Q ← pointAdd p a RQ.2 RQ.2
      .ok (R, Q))
    (.inf, P)

/-- A full-word host read at an offset of the map. -/
def readAt (s : State) (off : Nat) : Access :=
  { addr := s.params.base + off, lanes := 0xF, kind := .read }

/-- A full-word host write at an offset of the map. -/
def writeAt (s : State) (off : Nat) (v : Word32) : Access :=
  { addr := s.params.base + off, lanes := 0xF, kind := .write v }

/-- The host reads the word w at an offset, and the read changes nothing but the word on the bus
(20_memory.md R67). -/
def Reads (s : State) (off : Nat) (w : Word32) : Prop :=
  hostAccess (readAt s off) s = .next { s with busData := some w }

/-- A host write at an offset is ignored: no register and no flag changes. -/
def Ignored (s : State) (off : Nat) (v : Word32) : Prop := hostAccess (writeAt s off v) s = .next s

/-- A host write at an offset is dropped: only STATUS.WR_DROP is set (20_memory.md R68, R69). -/
def Dropped (s : State) (off : Nat) (v : Word32) : Prop :=
  hostAccess (writeAt s off v) s = .next { s with status := { s.status with wrDrop := true } }

/-- The curve y² = x³ + a·x + b over the integers mod p. -/
def curve (p a b : Nat) : WeierstrassCurve.Affine (ZMod p) :=
  { a₁ := 0, a₂ := 0, a₃ := 0, a₄ := (a : ZMod p), a₆ := (b : ZMod p) }

/-- The Point value a point of the curve is held as: canonical coordinates, INF for the identity. -/
def pointOf {p a b : Nat} : (curve p a b).Point → Point
  | .zero => .inf
  | .some x y _ => .affine x.val y.val

end Sys2Proof.Machine
end

