-- ==== Sys2Proof/Certificates/Slice0/Obligations.lean ====
section
/-! DEFINITION. The statements for the provers. They quantify over every state, and so over every W and
BASE; where a value must fit a register they assume the invariant State.Inv, which every step keeps
(StepKeepsInvariant). Nothing rests on a reset value the model chose, nor on a free value. -/

open Sys2Proof Sys2Proof.Machine

/-- 10_state.md R41, its specified part, as the host reads it at reset; PARAM is that of the reference
configuration W = 256 (log entry 1). -/
def Obligations.ResetGivesStatedValues : Prop :=
  Reads State.reset 0x0000 0x45434331 ∧ Reads State.reset 0x0004 0x08100100 ∧
    Reads State.reset 0x0008 0 ∧ Reads State.reset 0x000C 0 ∧ Reads State.reset 0x0010 0 ∧
    Reads State.reset 0x0014 0 ∧ State.reset.readF 0 = 0 ∧ State.reset.irq = false

/-- The state after reset satisfies the invariant. The zeros of its datapath registers are the model's
choice (log entry 3); any values below 2^W would do. -/
def Obligations.ResetSatisfiesInvariant : Prop := State.reset.Inv

/-- The invariant is inductive: registers stay below 2^W, F0 stays zero, DONE and FAULT exclude each
other, the latched word is the accepted one, the engine is where the ladder says. -/
def Obligations.StepKeepsInvariant : Prop := ∀ s t : State, s.Inv → step s = .next t → t.Inv

/-- The step runs the decoded command: a busy block whose turn it is executes the command its latched
word decodes to, in the state from which that turn has been taken; an illegal word ends with
E_ILLEGAL. The word right after acceptance is such a word. -/
def Obligations.StepRunsDecodedCommand : Prop :=
  (∀ (s : State) (i : Instr), s.status.busy = true → decode s.latched = .ok i →
    (s.turns = [] → step s = exec i s) ∧
    (∀ rest, s.turns = .sequencer :: rest → step s = exec i { s with turns := rest })) ∧
  (∀ (s : State) (e : Reject), s.status.busy = true → decode s.latched = .error e → s.turns = [] →
    step s = .next (s.takeFault .illegal)) ∧
  (∀ (s : State) (i : Instr), step (s.withFetchWord 32 (encode i).toNat) =
    exec i { s.acceptCmd (encode i) with turns := [] })

/-- The step takes the oldest turn given: the host's access, the engine's iteration, the reset input;
an Idle block with no turn given waits. The order of turns is the model's way to say who moves next
(log entry 6). -/
def Obligations.StepTakesTheOldestTurn : Prop :=
  ∀ (s : State) (rest : List Turn),
    (∀ a, s.turns = .host a :: rest → step s = hostAccess a { s with turns := rest }) ∧
    (s.turns = .engine :: rest → step s = .next (engineTurn { s with turns := rest })) ∧
    (∀ c, s.turns = .reset c :: rest →
      step s = .next (State.hardReset { s with turns := rest })) ∧
    (s.turns = [] → s.status.busy = false → step s = .next s)

/-- Words written out from the bit patterns of 30_encoding.md R85 decode to their commands. -/
def Obligations.WordsOfTheOpcodeMapDecode : Prop :=
  decode 0x00000000 = .ok .nop ∧ decode 0x00021B81 = .ok (.madd .g 11 1 2) ∧
    decode 0x00002B84 = .ok (.minv .g 11 2) ∧ decode 0x00010210 = .ok (.padd 2 0 1) ∧
    decode 0x00110213 = .ok (.pmul true 2 0 1) ∧ decode 0x00076514 = .ok (.pset 5 6 7) ∧
    decode 0x00007C17 = .ok (.pgetx 12 7) ∧ decode 0x00000316 = .ok (.pldg 3)

/-- Decoding an encoded command gives it back, every operand at every value. -/
def Obligations.DecodeOfEncodeIsIdentity : Prop := ∀ i : Instr, decode (encode i) = .ok i

/-- A legal word has one meaning: what decodes to i is the word of i, bit for bit. -/
def Obligations.DecodedWordIsItsEncoding : Prop :=
  ∀ (w : Word32) (i : Instr), decode w = .ok i → encode i = w

/-- 30_encoding.md R86 against R87: the decoder accepts exactly the words to which none of R86's
conditions applies. -/
def Obligations.DecoderAcceptsExactlyLegalWords : Prop :=
  ∀ w : Word32, (∃ i, decode w = .ok i) ↔ (Fields.ofWord w).legal = true

/-- A word decodes to a command only if it matches the bit pattern of that command's row
(30_encoding.md R85), and no word matches the patterns of two commands of different rows. -/
def Obligations.DecodedWordMatchesItsRowAlone : Prop :=
  ∀ (w : Word32) (i j : Instr), decode w = .ok i → w &&& i.row.mask = i.row.pattern ∧
    (w &&& j.row.mask = j.row.pattern → j.row = i.row)

/-- 30_encoding.md R86, R87: an accepted word that is illegal ends with E_ILLEGAL and writes nothing,
whatever LOCK and the moduli are. -/
def Obligations.IllegalWordFaultsAndWritesNothing : Prop :=
  IllegalWhen fun x => x.legal = false

/-- 43_system.md R170. -/
def Obligations.NopCompletes : Prop :=
  encode .nop = 0x00000000 ∧
  (∀ s : State, ∃ t, exec .nop s = .next t ∧ t.f = s.f ∧ t.pt = s.pt ∧ t.consts = s.consts ∧
    t.mg = s.mg ∧ SameControl s t ∧ EndedDone s t false) ∧
  IllegalWhen fun x => x.opc = 0x00 ∧
    (x.msel ≠ 0 ∨ x.d ≠ 0 ∨ x.a ≠ 0 ∨ x.b ≠ 0 ∨ x.neg ≠ 0 ∨ x.rsv ≠ 0)

/-- 40_modular.md R101. -/
def Obligations.MaddAddsModulo : Prop :=
  (∀ (s : State) (sel : Modulus) (d a b : FReg), s.Inv →
    opcode (.madd sel d a b) = 0x01 ∧
    (Ready (.madd sel d a b) s →
      CompletesF (.madd sel d a b) s d ((s.readF a + s.readF b) % s.modulus sel)) ∧
    LockFault (.madd sel d a b) s ∧ ModulusFault (.madd sel d a b) s) ∧
  IllegalWhen fun x => x.opc = 0x01 ∧ (x.msel = 3 ∨ x.neg ≠ 0 ∨ x.rsv ≠ 0)

/-- 40_modular.md R102: the result is the least non-negative residue of the exact signed
difference. -/
def Obligations.MsubSubtractsModulo : Prop :=
  (∀ (s : State) (sel : Modulus) (d a b : FReg), s.Inv →
    opcode (.msub sel d a b) = 0x02 ∧
    (Ready (.msub sel d a b) s →
      ∃ r : Nat, r < s.modulus sel ∧
        (r : Int) ≡ (s.readF a : Int) - s.readF b [ZMOD s.modulus sel] ∧
        (s.readF b ≤ s.readF a → r = (s.readF a - s.readF b) % s.modulus sel) ∧
        CompletesF (.msub sel d a b) s d r) ∧
    LockFault (.msub sel d a b) s ∧ ModulusFault (.msub sel d a b) s) ∧
  IllegalWhen fun x => x.opc = 0x02 ∧ (x.msel = 3 ∨ x.neg ≠ 0 ∨ x.rsv ≠ 0)

/-- 40_modular.md R103, for every modulus m ≥ 2, even ones too. -/
def Obligations.MmulMultipliesModulo : Prop :=
  (∀ (s : State) (sel : Modulus) (d a b : FReg), s.Inv →
    opcode (.mmul sel d a b) = 0x03 ∧
    (Ready (.mmul sel d a b) s →
      CompletesF (.mmul sel d a b) s d (s.readF a * s.readF b % s.modulus sel)) ∧
    LockFault (.mmul sel d a b) s ∧ ModulusFault (.mmul sel d a b) s) ∧
  IllegalWhen fun x => x.opc = 0x03 ∧ (x.msel = 3 ∨ x.neg ≠ 0 ∨ x.rsv ≠ 0)

/-- 40_modular.md R104 with 00_scope.md R12: the one inverse below m, or E_INV_ZERO. -/
def Obligations.MinvInvertsOrFaults : Prop :=
  (∀ (s : State) (sel : Modulus) (d a : FReg), s.Inv →
    opcode (.minv sel d a) = 0x04 ∧
    (Ready (.minv sel d a) s → Nat.gcd (s.readF a % s.modulus sel) (s.modulus sel) = 1 →
      ∃ r, r < s.modulus sel ∧ s.readF a % s.modulus sel * r % s.modulus sel = 1 ∧
        (∀ r', r' < s.modulus sel → s.readF a % s.modulus sel * r' % s.modulus sel = 1 → r' = r) ∧
        CompletesF (.minv sel d a) s d r) ∧
    (Ready (.minv sel d a) s → Nat.gcd (s.readF a % s.modulus sel) (s.modulus sel) ≠ 1 →
      FaultsWith (.minv sel d a) s .invZero) ∧
    LockFault (.minv sel d a) s ∧ ModulusFault (.minv sel d a) s) ∧
  IllegalWhen fun x => x.opc = 0x04 ∧ (x.msel = 3 ∨ x.b ≠ 0 ∨ x.neg ≠ 0 ∨ x.rsv ≠ 0)

/-- 40_modular.md R105: the power with the raw exponent; anything to the 0 is 1. -/
def Obligations.MpowRaisesToThePower : Prop :=
  (∀ (s : State) (sel : Modulus) (d a b : FReg), s.Inv →
    opcode (.mpow sel d a b) = 0x05 ∧
    (Ready (.mpow sel d a b) s →
      CompletesF (.mpow sel d a b) s d (s.readF a ^ s.readF b % s.modulus sel)) ∧
    LockFault (.mpow sel d a b) s ∧ ModulusFault (.mpow sel d a b) s) ∧
  IllegalWhen fun x => x.opc = 0x05 ∧ (x.msel = 3 ∨ x.neg ≠ 0 ∨ x.rsv ≠ 0)

/-- 40_modular.md R106: a raw copy that needs no lock and no modulus. -/
def Obligations.FmovCopiesRaw : Prop :=
  (∀ (s : State) (d a : FReg), s.Inv →
    opcode (.fmov d a) = 0x06 ∧ CompletesF (.fmov d a) s d (s.readF a)) ∧
  IllegalWhen fun x => x.opc = 0x06 ∧ (x.msel ≠ 0 ∨ x.b ≠ 0 ∨ x.neg ≠ 0 ∨ x.rsv ≠ 0)

/-- The classic DH agreement of 40_modular.md R108, for every base, both exponents and every modulus
m ≥ 2: two MPOWs in either order of the exponents. -/
def Obligations.MpowExponentsCommute : Prop :=
  ∀ (s t u : State) (sel : Modulus) (g a b x y : FReg), s.Inv →
    Ready (.mpow sel x g a) s → x ≠ 0 → y ≠ 0 → x ≠ a → x ≠ b → y ≠ a → y ≠ b → x ≠ y → g ≠ x →
    exec (.mpow sel x g a) s = .next t → exec (.mpow sel y g b) t = .next u →
    ∃ v w, exec (.mpow sel x x b) u = .next v ∧ exec (.mpow sel y y a) v = .next w ∧
      w.readF x = w.readF y ∧ w.readF x = s.readF g ^ (s.readF a * s.readF b) % s.modulus sel

/-- 41_point.md R121: Add(P, Q) branch by branch, for every pair of operands, with the faults of
R125. -/
def Obligations.PaddAddsPoints : Prop :=
  (∀ (s : State) (d a b : PReg), s.Inv →
    opcode (.padd d a b) = 0x10 ∧
    LockFault (.padd d a b) s ∧ ModulusFault (.padd d a b) s ∧
    (Ready (.padd d a b) s →
      (s.readPt a = .inf → CompletesPt (.padd d a b) s d (s.readPt b)) ∧
      (s.readPt b = .inf → CompletesPt (.padd d a b) s d (s.readPt a)) ∧
      (∀ x1 y1 x2 y2, s.readPt a = .affine x1 y1 → s.readPt b = .affine x2 y2 →
        (x1 = x2 → (y1 + y2) % s.consts.cp = 0 → CompletesPt (.padd d a b) s d .inf) ∧
        (x1 = x2 → y1 = y2 → (y1 + y2) % s.consts.cp ≠ 0 →
          (Int.gcd (2 * y1) s.consts.cp = 1 → ∃ lam x y,
            Slope s.consts.cp (3 * x1 * x1 + s.consts.ca) (2 * y1) lam ∧
            OnSlope s.consts.cp x1 y1 x2 lam x y ∧ CompletesPt (.padd d a b) s d (.affine x y)) ∧
          (Int.gcd (2 * y1) s.consts.cp ≠ 1 → FaultsWith (.padd d a b) s .invZero)) ∧
        (¬ (x1 = x2 ∧ (y1 + y2) % s.consts.cp = 0) → ¬ (x1 = x2 ∧ y1 = y2) →
          (Int.gcd ((x2 : Int) - x1) s.consts.cp = 1 → ∃ lam x y,
            Slope s.consts.cp ((y2 : Int) - y1) ((x2 : Int) - x1) lam ∧
            OnSlope s.consts.cp x1 y1 x2 lam x y ∧ CompletesPt (.padd d a b) s d (.affine x y)) ∧
          (Int.gcd ((x2 : Int) - x1) s.consts.cp ≠ 1 → FaultsWith (.padd d a b) s .invZero))))) ∧
  IllegalWhen fun x => x.opc = 0x10 ∧
    (x.msel ≠ 0 ∨ 8 ≤ x.d.toNat ∨ 8 ≤ x.a.toNat ∨ 8 ≤ x.b.toNat ∨ x.neg ≠ 0 ∨ x.rsv ≠ 0)

/-- 41_point.md R122, the derived form of doubling. -/
def Obligations.PdblDoublesPoint : Prop :=
  (∀ (s : State) (d a : PReg), s.Inv →
    opcode (.pdbl d a) = 0x11 ∧ LockFault (.pdbl d a) s ∧ ModulusFault (.pdbl d a) s ∧
    (Ready (.pdbl d a) s →
      (s.readPt a = .inf → CompletesPt (.pdbl d a) s d .inf) ∧
      (∀ x y, s.readPt a = .affine x y →
        (2 * y % s.consts.cp = 0 → CompletesPt (.pdbl d a) s d .inf) ∧
        (2 * y % s.consts.cp ≠ 0 → Int.gcd (2 * y) s.consts.cp = 1 → ∃ lam xr yr,
          Slope s.consts.cp (3 * x * x + s.consts.ca) (2 * y) lam ∧
          OnSlope s.consts.cp x y x lam xr yr ∧ CompletesPt (.pdbl d a) s d (.affine xr yr)) ∧
        (2 * y % s.consts.cp ≠ 0 → Int.gcd (2 * y) s.consts.cp ≠ 1 →
          FaultsWith (.pdbl d a) s .invZero)))) ∧
  IllegalWhen fun x => x.opc = 0x11 ∧
    (x.msel ≠ 0 ∨ 8 ≤ x.d.toNat ∨ 8 ≤ x.a.toNat ∨ x.b ≠ 0 ∨ x.neg ≠ 0 ∨ x.rsv ≠ 0)

/-- 41_point.md R123, for every stored y, at least p too. -/
def Obligations.PnegNegatesPoint : Prop :=
  (∀ (s : State) (d a : PReg), s.Inv →
    opcode (.pneg d a) = 0x12 ∧ LockFault (.pneg d a) s ∧ ModulusFault (.pneg d a) s ∧
    (Ready (.pneg d a) s →
      (s.readPt a = .inf → CompletesPt (.pneg d a) s d .inf) ∧
      (∀ x y, s.readPt a = .affine x y → ∃ r, r < s.consts.cp ∧ (r + y) % s.consts.cp = 0 ∧
        CompletesPt (.pneg d a) s d (.affine x r)))) ∧
  IllegalWhen fun x => x.opc = 0x12 ∧
    (x.msel ≠ 0 ∨ 8 ≤ x.d.toNat ∨ 8 ≤ x.a.toNat ∨ x.b ≠ 0 ∨ x.neg ≠ 0 ∨ x.rsv ≠ 0)

/-- 42_scalar_mul.md R150, R151, R153: the loop of the pseudocode on (R, Q), with P negated once for
NEG = 1; the first fault of an Add ends the command. -/
def Obligations.PmulRunsTheLadder : Prop :=
  (∀ (s : State) (neg : Bool) (d a : PReg) (b : FReg), s.Inv →
    opcode (.pmul neg d a b) = 0x13 ∧
    LockFault (.pmul neg d a b) s ∧ ModulusFault (.pmul neg d a b) s ∧
    (Ready (.pmul neg d a b) s →
      (s.readF b = 0 ∨ s.readPt a = .inf → CompletesPt (.pmul neg d a b) s d .inf) ∧
      (∀ x y, s.readF b ≠ 0 → s.readPt a = .affine x y →
        ∃ y', (neg = false → y' = y) ∧
          (neg = true → y' < s.consts.cp ∧ (y' + y) % s.consts.cp = 0) ∧
          (∀ R Q, ladderLoop s.consts.cp s.consts.ca (s.readF b) (.affine x y') = .ok (R, Q) →
            CompletesPt (.pmul neg d a b) s d R) ∧
          (∀ c, ladderLoop s.consts.cp s.consts.ca (s.readF b) (.affine x y') = .error c →
            c = .invZero ∧ FaultsWith (.pmul neg d a b) s .invZero)))) ∧
  IllegalWhen fun x => x.opc = 0x13 ∧ (x.msel ≠ 0 ∨ 8 ≤ x.d.toNat ∨ 8 ≤ x.a.toNat ∨ x.rsv ≠ 0)

/-- 42_scalar_mul.md R152 (b) and (d): kmag = 1 gives P as stored, its negation for NEG = 1; a P with
y ≡ 0 mod p gives that point for odd kmag and INF for even kmag. -/
def Obligations.PmulByOneAndOfOrderTwo : Prop :=
  ∀ (s : State) (neg : Bool) (d a : PReg) (b : FReg) (x y : Nat), s.Inv →
    Ready (.pmul neg d a b) s → s.readPt a = .affine x y →
    ∃ y', (neg = false → y' = y) ∧
      (neg = true → y' < s.consts.cp ∧ (y' + y) % s.consts.cp = 0) ∧
      (s.readF b = 1 ∧ Int.gcd (2 * y) s.consts.cp = 1 →
        CompletesPt (.pmul neg d a b) s d (.affine x y')) ∧
      (y % s.consts.cp = 0 → s.readF b % 2 = 1 →
        CompletesPt (.pmul neg d a b) s d (.affine x y')) ∧
      (y % s.consts.cp = 0 → s.readF b % 2 = 0 → CompletesPt (.pmul neg d a b) s d .inf)

/-- 41_point.md R127: raw coordinates, no lock, no modulus, no curve check. -/
def Obligations.PsetBuildsRawPoint : Prop :=
  (∀ (s : State) (d : PReg) (a b : FReg), s.Inv →
    opcode (.pset d a b) = 0x14 ∧
    CompletesPt (.pset d a b) s d (.affine (s.readF a) (s.readF b))) ∧
  IllegalWhen fun x => x.opc = 0x14 ∧
    (x.msel ≠ 0 ∨ 8 ≤ x.d.toNat ∨ x.neg ≠ 0 ∨ x.rsv ≠ 0)

/-- 41_point.md R128. -/
def Obligations.PinfLoadsInfinity : Prop :=
  (∀ (s : State) (d : PReg), opcode (.pinf d) = 0x15 ∧ CompletesPt (.pinf d) s d .inf) ∧
  IllegalWhen fun x => x.opc = 0x15 ∧
    (x.msel ≠ 0 ∨ 8 ≤ x.d.toNat ∨ x.a ≠ 0 ∨ x.b ≠ 0 ∨ x.neg ≠ 0 ∨ x.rsv ≠ 0)

/-- 41_point.md R129: the generator, raw, whatever CP is. -/
def Obligations.PldgLoadsGenerator : Prop :=
  (∀ (s : State) (d : PReg), s.Inv →
    opcode (.pldg d) = 0x16 ∧ LockFault (.pldg d) s ∧
    (s.ctrl.lock = true → CompletesPt (.pldg d) s d (.affine s.consts.cgx s.consts.cgy))) ∧
  IllegalWhen fun x => x.opc = 0x16 ∧
    (x.msel ≠ 0 ∨ 8 ≤ x.d.toNat ∨ x.a ≠ 0 ∨ x.b ≠ 0 ∨ x.neg ≠ 0 ∨ x.rsv ≠ 0)

/-- 41_point.md R130: the raw x, or E_INF_COORD, for F0 as destination too. -/
def Obligations.PgetxReadsXOrFaults : Prop :=
  (∀ (s : State) (d : FReg) (a : PReg), s.Inv →
    opcode (.pgetx d a) = 0x17 ∧
    (∀ x y, s.readPt a = .affine x y → CompletesF (.pgetx d a) s d x) ∧
    (s.readPt a = .inf → FaultsWith (.pgetx d a) s .infCoord)) ∧
  IllegalWhen fun x => x.opc = 0x17 ∧
    (x.msel ≠ 0 ∨ 8 ≤ x.a.toNat ∨ x.b ≠ 0 ∨ x.neg ≠ 0 ∨ x.rsv ≠ 0)

/-- 41_point.md R131: the raw y, or E_INF_COORD. -/
def Obligations.PgetyReadsYOrFaults : Prop :=
  (∀ (s : State) (d : FReg) (a : PReg), s.Inv →
    opcode (.pgety d a) = 0x18 ∧
    (∀ x y, s.readPt a = .affine x y → CompletesF (.pgety d a) s d y) ∧
    (s.readPt a = .inf → FaultsWith (.pgety d a) s .infCoord)) ∧
  IllegalWhen fun x => x.opc = 0x18 ∧
    (x.msel ≠ 0 ∨ 8 ≤ x.a.toNat ∨ x.b ≠ 0 ∨ x.neg ≠ 0 ∨ x.rsv ≠ 0)

/-- 41_point.md R132: the Point value of the source, so INF is written with x = y = 0 whatever the
source register held. -/
def Obligations.PmovCopiesPointValue : Prop :=
  (∀ (s : State) (d a : PReg), s.Inv →
    opcode (.pmov d a) = 0x19 ∧
    (s.pt[a].inf = true → CompletesPt (.pmov d a) s d .inf) ∧
    (s.pt[a].inf = false → CompletesPt (.pmov d a) s d (.affine s.pt[a].x s.pt[a].y))) ∧
  IllegalWhen fun x => x.opc = 0x19 ∧
    (x.msel ≠ 0 ∨ 8 ≤ x.d.toNat ∨ 8 ≤ x.a.toNat ∨ x.b ≠ 0 ∨ x.neg ≠ 0 ∨ x.rsv ≠ 0)

/-- 60_exceptions.md R186, 30_encoding.md R87 for every command at once: E_CFG before E_MOD before any
data fault. -/
def Obligations.FaultPriorityIsCfgThenMod : Prop :=
  ∀ (i : Instr) (s : State), LockFault i s ∧ ModulusFault i s ∧
    (Ready i s → ∀ t c, exec i s = .next t → EndedFault s t c → s.status.fault = false →
      c = .invZero ∨ c = .infCoord)

/-- 60_exceptions.md R181, its second sentence: a command that reads no curve constant ends the same
way whatever LOCK is. -/
def Obligations.UnlockedCommandsIgnoreLock : Prop :=
  ∀ (i : Instr) (s : State) (l : Bool), lockNeeded i = false →
    ∃ t, exec i s = .next t ∧
      exec i { s with ctrl := { s.ctrl with lock := l } } =
        .next { t with ctrl := { t.ctrl with lock := l } }

/-- 10_state.md R26: no command reads CB or CH. -/
def Obligations.CoefficientBAndCofactorAreUnread : Prop :=
  ∀ (i : Instr) (s : State) (b h : Nat), ∃ t, exec i s = .next t ∧
    exec i { s with consts := { s.consts with cb := b, ch := h } } =
      .next { t with consts := { t.consts with cb := b, ch := h } }

/-- 60_exceptions.md R183 and 10_state.md R39, R40: every command ends in exactly one of two ways, with
all of its results or with none; RINF is the inf bit just written to a PT destination, 0 for any
other command, and unchanged by a fault. -/
def Obligations.EveryCommandEndsWholeOrWithFault : Prop :=
  ∀ (i : Instr) (s : State), ∃ t, exec i s = .next t ∧
    ((∃ c, c ≠ .noFault ∧ EndedFault s t c) ∨
     (SameControl s t ∧ t.consts = s.consts ∧ t.mg = s.mg ∧
      (match destOf i with
        | .none => t.f = s.f ∧ t.pt = s.pt ∧ EndedDone s t false
        | .f d => (∀ j, j ≠ d → t.readF j = s.readF j) ∧ t.pt = s.pt ∧ EndedDone s t false
        | .pt d => (∀ j : PReg, j ≠ d → t.pt[j] = s.pt[j]) ∧ t.f = s.f ∧
            EndedDone s t t.pt[d].inf)))

/-- 10_state.md R21: F0 reads 0 to every command, keeps reading 0 whatever a command writes to it, and
a host write to its window while Idle is ignored. -/
def Obligations.FieldRegisterZeroIsHardwired : Prop :=
  ∀ s : State, s.readF 0 = 0 ∧
    (∀ (i : Instr) (t : State), exec i s = .next t → destOf i = .f 0 → t.f = s.f) ∧
    (s.status.busy = false → ∀ j v, j < 128 →
      Ignored s (0x2000 + 4 * j) v ∧ Reads s (0x2000 + 4 * j) 0)

/-- 41_point.md R124 (d) and R133, commutativity, with no premise at all: PADD ends in the same state
with its sources exchanged, for raw, off-curve and non-invertible operands too. -/
def Obligations.PaddCommutes : Prop :=
  ∀ (s : State) (d a b : PReg), exec (.padd d a b) s = exec (.padd d b a) s

/-- 41_point.md R133, for p = CP prime and points of the curve y² = x³ + CA·x + CB: PADD is the group
addition, PDBL the doubling, PNEG the negation; none of them faults, and every affine result is
canonical and on the curve. The group is Mathlib's, of the nonsingular points. -/
def Obligations.PointCommandsAreTheGroupLaw : Prop :=
  ∀ (s : State) (d a b : PReg) [Fact s.consts.cp.Prime]
    (M N : (curve s.consts.cp s.consts.ca s.consts.cb).Point),
    s.Inv → s.ctrl.lock = true → s.readPt a = pointOf M → s.readPt b = pointOf N →
      CompletesPt (.padd d a b) s d (pointOf (M + N)) ∧
      CompletesPt (.pdbl d a) s d (pointOf (M + M)) ∧
      CompletesPt (.pneg d a) s d (pointOf (-M))

/-- 42_scalar_mul.md R154: PMUL is the multiple k·P of the group, with k = ±F[B]. -/
def Obligations.PmulIsScalarMultiplication : Prop :=
  ∀ (s : State) (neg : Bool) (d a : PReg) (b : FReg) [Fact s.consts.cp.Prime]
    (M : (curve s.consts.cp s.consts.ca s.consts.cb).Point),
    s.Inv → s.ctrl.lock = true → s.readPt a = pointOf M →
      CompletesPt (.pmul neg d a b) s d
        (pointOf ((if neg then -(s.readF b : Int) else (s.readF b : Int)) • M))

/-- 42_scalar_mul.md R154, ECDH agreement: two PMULs by private keys in either order give one
point. -/
def Obligations.EcdhAgreement : Prop :=
  ∀ (s t u : State) (P A B : PReg) (x y : FReg) [Fact s.consts.cp.Prime]
    (M : (curve s.consts.cp s.consts.ca s.consts.cb).Point),
    s.Inv → s.ctrl.lock = true → s.readPt P = pointOf M → A ≠ B → A ≠ P →
    exec (.pmul false A P x) s = .next t → exec (.pmul false B P y) t = .next u →
    ∃ v w, exec (.pmul false A A y) u = .next v ∧ exec (.pmul false B B x) v = .next w ∧
      w.readPt A = w.readPt B

/-- 42_scalar_mul.md R153 and 10_state.md R30 (b): the engine's hidden progress shows in nothing but
when the command ends: after any turn of the engine the sequencer ends the command as it would have
without that turn, or the engine has met a fault and the command has ended as the sequencer would
have ended it. -/
def Obligations.EngineProgressIsHidden : Prop :=
  ∀ s : State, s.Inv → s.status.busy = true →
    ((engineTurn s).status.busy = true ∧ sequencerTurn (engineTurn s) = sequencerTurn s) ∨
    sequencerTurn s = .next (engineTurn s)

/-- 70_reset_and_hazards.md R219: every accepted command ends, with exactly one of DONE and FAULT; here
at the sequencer's next turn. -/
def Obligations.EveryAcceptedCommandEnds : Prop :=
  ∀ s : State, s.Inv → s.status.busy = true → s.turns = [] →
    ∃ t, step s = .next t ∧ t.status.busy = false ∧ t.status.done = !t.status.fault

/-- The machine stops only on an access outside the register map (20_memory.md R61; that it stops there
is the model's choice, log entry 10). -/
def Obligations.StepStopsOnlyOutsideRegisterMap : Prop :=
  ∀ s : State, (∃ t, step s = .next t) ∨
    (∃ a rest, s.turns = .host a :: rest ∧
      ¬ (s.params.base ≤ a.addr ∧ a.addr < s.params.base + 0x8000) ∧
      step s = .fault (.outsideRegisterMap a.addr))

/-- 10_state.md R27, over everything the machine can do: curve constants change only by a host write
while LOCK = 0 and Idle to one of their windows, or by a hardware reset. -/
def Obligations.CurveConstantsChangeOnlyUnlockedAndIdle : Prop :=
  ∀ s t : State, step s = .next t → t.consts ≠ s.consts →
    (∃ a rest v c j, s.turns = .host a :: rest ∧ a.kind = .write v ∧ a.lanes = 0xF ∧
      target (a.addr - s.params.base) = .window (.const c) j ∧
      s.ctrl.lock = false ∧ s.status.busy = false) ∨
    (∃ c rest, s.turns = .reset c :: rest)

/-- 43_system.md R172, 10_state.md R33: LOCK once set stays set until a reset, soft or hardware. -/
def Obligations.LockHoldsUntilReset : Prop :=
  ∀ s t : State, step s = .next t → s.ctrl.lock = true → t.ctrl.lock = false →
    (∃ a rest v, s.turns = .host a :: rest ∧ a.addr = s.params.base + 0x0008 ∧ a.lanes = 0xF ∧
      a.kind = .write v ∧ v.getLsbD 2 = true) ∨
    (∃ c rest, s.turns = .reset c :: rest)

/-- ID and PARAM read the values of 10_state.md R31 and R32, and writes to them are ignored. No step
changes the parameters behind them: W, which PARAM shows and R32 calls constant, and BASE, a platform
parameter (20_memory.md R61) whose constancy is the model's choice (log entries 1, 2). -/
def Obligations.IdentityAndParametersAreConstant : Prop :=
  (∀ s t : State, step s = .next t → t.params = s.params) ∧
  (∀ (s : State) (v : Word32), Ignored s 0x0000 v ∧ Ignored s 0x0004 v ∧
    Reads s 0x0000 0x45434331 ∧
    ∃ w, Reads s 0x0004 w ∧ (s.params.Legal → w.toNat = s.params.width + 16 * 2 ^ 16 + 8 * 2 ^ 24))

/-- 10_state.md R36. -/
def Obligations.CmdWriteAcceptsExactlyWhenIdleAndUnfaulted : Prop :=
  ∀ (s : State) (c : Word32), Reads s 0x0010 s.cmd ∧
    (s.status.busy = false → s.status.fault = false → ∃ t,
      hostAccess (writeAt s 0x0010 c) s = .next t ∧ t.cmd = c ∧ t.latched = c ∧
      t.status = { s.status with done := false, busy := true } ∧ t.f = s.f ∧ t.pt = s.pt ∧
      t.consts = s.consts ∧ t.mg = s.mg ∧ t.ctrl = s.ctrl ∧ t.fcmd = s.fcmd ∧ t.turns = s.turns) ∧
    (s.status.busy = true ∨ s.status.fault = true →
      hostAccess (writeAt s 0x0010 c) s =
        .next { s with status := { s.status with cmdDrop := true } })

/-- 10_state.md R35, and R34's layout: what the host reads afterwards, bit by bit. -/
def Obligations.StatusWriteClearsOnlyWrittenOnes : Prop :=
  ∀ (s : State) (v : Word32), ∃ t w w', hostAccess (writeAt s 0x000C v) s = .next t ∧
    t = { s with status := t.status } ∧ Reads s 0x000C w ∧ Reads t 0x000C w' ∧
    (∀ n < 32, w'.getLsbD n =
      (w.getLsbD n && !(v.getLsbD n && (n == 1 || n == 2 || n == 8 || n == 9)))) ∧
    (∀ n < 32, w.getLsbD n =
      match n with
      | 0 => s.status.busy
      | 1 => s.status.done
      | 2 => s.status.fault
      | 3 => s.status.rinf
      | 4 => s.status.fcode.bits.getLsbD 0
      | 5 => s.status.fcode.bits.getLsbD 1
      | 6 => s.status.fcode.bits.getLsbD 2
      | 7 => s.status.fcode.bits.getLsbD 3
      | 8 => s.status.cmdDrop
      | 9 => s.status.wrDrop
      | _ => false)

/-- 10_state.md R33, Idle or Busy, for a write without SRST; the line IRQ follows at once
(60_exceptions.md R190). -/
def Obligations.CtrlWriteSetsEnableAndLock : Prop :=
  ∀ (s : State) (v : Word32), v.getLsbD 2 = false →
    hostAccess (writeAt s 0x0008 v) s =
      .next { s with ctrl := { ie := v.getLsbD 0, lock := s.ctrl.lock || v.getLsbD 1 } } ∧
    (∃ w, Reads s 0x0008 w ∧ ∀ n < 32, w.getLsbD n =
      match n with
      | 0 => s.ctrl.ie
      | 1 => s.ctrl.lock
      | _ => false) ∧
    (v.getLsbD 0 = true → s.status.done = true ∨ s.status.fault = true → ∀ t,
      hostAccess (writeAt s 0x0008 v) s = .next t → t.irq = true)

/-- 60_exceptions.md R189: the line at the end of every command, and how it is cleared. -/
def Obligations.InterruptLineFollowsCompletion : Prop :=
  ∀ s : State, (s.irq = true ↔
      s.ctrl.ie = true ∧ (s.status.done = true ∨ s.status.fault = true)) ∧
    (∀ (i : Instr) (t : State), exec i s = .next t → t.irq = s.ctrl.ie) ∧
    (∀ t, hostAccess (writeAt s 0x000C 0x00000006) s = .next t → t.irq = false) ∧
    (∀ c t, s.status.busy = false → s.status.fault = false →
      hostAccess (writeAt s 0x0010 c) s = .next t → t.irq = false)

/-- 60_exceptions.md R185: the return from a fault. The data registers are F, PT, the curve constants
and MG (R183). -/
def Obligations.FaultReturnReopensTheBlock : Prop :=
  ∀ s : State, s.Inv → s.status.fault = true →
    ∃ t, hostAccess (writeAt s 0x000C 0x00000004) s = .next t ∧ t.status.fault = false ∧
      t.status.fcode = s.status.fcode ∧ t.fcmd = s.fcmd ∧ t.f = s.f ∧ t.pt = s.pt ∧
      t.consts = s.consts ∧ t.mg = s.mg ∧ t.status.busy = false ∧
      ∀ c, ∃ u, hostAccess (writeAt t 0x0010 c) t = .next u ∧ u.status.busy = true ∧ u.cmd = c

/-- 20_memory.md R64, reading: bit t of window word j is bit 4064 − 32j + t of the register. -/
def Obligations.WindowWordsReadTheRegister : Prop :=
  ∀ (s : State) (r : WinReg) (j : Nat), j < 128 →
    (s.status.busy = true → r.usedByCommands = false) →
    ∃ w, Reads s (r.offset + 4 * j) w ∧
      ∀ t < 32, w.getLsbD t = (s.regValue r).testBit (4064 - 32 * j + t)

/-- 20_memory.md R64, writing: exactly the 32 addressed bits change, those at W and above are
discarded; F0 excepted, whose window ignores writes (10_state.md R21); no other register changes. -/
def Obligations.WindowWritesChangeOnlyTheirBits : Prop :=
  ∀ (s : State) (r : WinReg) (j : Nat) (v : Word32), s.Inv → j < 128 → s.status.busy = false →
    (s.ctrl.lock = true → r.lockable = false) → r ≠ .f 0 →
    ∃ t, hostAccess (writeAt s (r.offset + 4 * j) v) s = .next t ∧
      (∀ n, (t.regValue r).testBit n =
        (decide (n < s.params.width) &&
          if 4064 - 32 * j ≤ n ∧ n < 4096 - 32 * j then v.getLsbD (n - (4064 - 32 * j))
          else (s.regValue r).testBit n)) ∧
      (∀ r', r' ≠ r → t.regValue r' = s.regValue r') ∧
      (∀ i : PReg, t.pt[i].inf = s.pt[i].inf) ∧ t.status = s.status ∧ SameControl s t ∧
      t.fcmd = s.fcmd ∧ t.ladder = s.ladder

/-- 70_reset_and_hazards.md R217 with 20_memory.md R64: the 128 word writes of `.wr R, v` load the low
W bits of v, whatever the register held; no other register, inf bit or flag changes. -/
def Obligations.WholeWindowWriteLoadsTheValue : Prop :=
  ∀ (s : State) (r : WinReg) (v : Nat), s.Inv → s.status.busy = false →
    (s.ctrl.lock = true → r.lockable = false) → r ≠ .f 0 →
    ∃ t, Sys2Proof.core.run 128 { s with turns := Directive.turns s (.wr r v) } = .next t ∧
      t.regValue r = v % 2 ^ s.params.width ∧ (∀ r', r' ≠ r → t.regValue r' = s.regValue r') ∧
      (∀ i : PReg, t.pt[i].inf = s.pt[i].inf) ∧ t.status = s.status ∧
      SameControl { s with turns := [] } t ∧ t.fcmd = s.fcmd ∧ t.ladder = s.ladder

/-- 70_reset_and_hazards.md R216, 20_memory.md R68, R69: a data-window or PTINF write while Busy and a
curve constant write while LOCK = 1 set WR_DROP and change nothing else; MG is not locked. -/
def Obligations.ForbiddenDataWritesAreDropped : Prop :=
  ∀ (s : State) (r : WinReg) (j : Nat) (v : Word32), j < 128 →
    (s.status.busy = true → Dropped s (r.offset + 4 * j) v ∧ Dropped s 0x0018 v) ∧
    (∀ c, r = .const c → s.ctrl.lock = true → Dropped s (r.offset + 4 * j) v)

/-- 20_memory.md R63, R66: reserved offsets and accesses that are misaligned or enable fewer than four
lanes read 0 and ignore writes, with no flag. -/
def Obligations.ReservedAndPartialAccessesDoNothing : Prop :=
  ∀ (s : State) (off : Nat) (lanes : BitVec 4) (v : Word32), off < 0x8000 →
    off % 4 ≠ 0 ∨ lanes ≠ 0xF ∨ (0x001C ≤ off ∧ off < 0x1000) ∨ 0x6000 ≤ off →
      hostAccess { addr := s.params.base + off, lanes := lanes, kind := .read } s =
        .next { s with busData := some 0 } ∧
      hostAccess { addr := s.params.base + off, lanes := lanes, kind := .write v } s = .next s

/-- 20_memory.md R67: a read changes nothing but the word on the bus (and the model's count of free
values). -/
def Obligations.ReadsHaveNoSideEffects : Prop :=
  ∀ (s t : State) (a : Access), a.kind = .read → hostAccess a s = .next t →
    ∃ w, t = { s with busData := some w, draws := t.draws }

/-- 10_state.md R37, over everything the machine can do: FCMD and FCODE change only when a command ends
with a fault, which records its word and a real code, or by a reset; the host reads FCMD and cannot
write it. -/
def Obligations.FaultRecordIsOfTheLastFault : Prop :=
  (∀ s t : State, s.Inv → step s = .next t →
    t.fcmd ≠ s.fcmd ∨ t.status.fcode ≠ s.status.fcode →
    (s.status.busy = true ∧ t.status.busy = false ∧ t.status.fault = true ∧ t.fcmd = s.cmd ∧
      t.status.fcode ≠ .noFault) ∨
    (∃ a rest v, s.turns = .host a :: rest ∧ a.addr = s.params.base + 0x0008 ∧ a.lanes = 0xF ∧
      a.kind = .write v ∧ v.getLsbD 2 = true) ∨
    (∃ c rest, s.turns = .reset c :: rest)) ∧
  ∀ (s : State) (v : Word32), Reads s 0x0014 s.fcmd ∧ Ignored s 0x0014 v

/-- 10_state.md R38, while Idle: PTINF reads and writes the eight inf bits; a write leaves x and y
alone. -/
def Obligations.PtinfHoldsTheInfBits : Prop :=
  ∀ (s : State) (v : Word32), s.status.busy = false →
    (∃ w, Reads s 0x0018 w ∧ (∀ i : PReg, w.getLsbD i.val = s.pt[i].inf) ∧
      ∀ n, 8 ≤ n → w.getLsbD n = false) ∧
    ∃ t, hostAccess (writeAt s 0x0018 v) s = .next t ∧ t = { s with pt := t.pt } ∧
      ∀ i : PReg, t.pt[i].inf = v.getLsbD i.val ∧ t.pt[i].x = s.pt[i].x ∧ t.pt[i].y = s.pt[i].y

/-- 70_reset_and_hazards.md R212: control state cleared, data registers kept but for the destination
of a command in progress. That CTRL is 0 also when bits 0 and 1 of the same write are 1 is the model's
choice (log entry 11). That NOP has no destination, so that every data register is kept, is the
model's choice too; so is the same of an illegal word (log entry 12), of which nothing is stated. -/
def Obligations.SoftResetKeepsDataButTheDestination : Prop :=
  ∀ (s : State) (v : Word32), v.getLsbD 2 = true →
    ∃ t, hostAccess (writeAt s 0x0008 v) s = .next t ∧ t.ctrl.word = 0 ∧ t.status.word = 0 ∧
      t.cmd = 0 ∧ t.fcmd = 0 ∧ t.ladder = none ∧ t.consts = s.consts ∧ t.mg = s.mg ∧
      t.params = s.params ∧
      (s.status.busy = false → t.f = s.f ∧ t.pt = s.pt) ∧
      (∀ i, s.status.busy = true → decode s.latched = .ok i →
        (∀ j : FReg, destOf i ≠ .f j → t.readF j = s.readF j) ∧
        (∀ j : PReg, destOf i ≠ .pt j → t.pt[j] = s.pt[j]))

/-- 70_reset_and_hazards.md R210, R211, 10_state.md R41: hardware reset in any state; an access that
coincides with it has no effect. -/
def Obligations.HardwareResetOverridesEverything : Prop :=
  ∀ (s : State) (c : Option Access) (rest : List Turn), s.turns = .reset c :: rest →
    ∃ t, step s = .next t ∧ t.ctrl.word = 0 ∧ t.status.word = 0 ∧ t.cmd = 0 ∧ t.fcmd = 0 ∧
      t.readF 0 = 0 ∧ t.irq = false ∧ t.params = s.params ∧ t.turns = rest ∧
      ∀ c', step { s with turns := .reset c' :: rest } = .next t
end

