-- ==== Sys2Proof/Laws/Arith.lean ====
section
/-! SUPPORT. What the arithmetic computes: residues, the Euclidean loop and the inverse,
exponentiation, the adder's branches, the ladder's iterations. -/

namespace Sys2Proof.Machine

/-- The residue is the integer remainder. -/
theorem residue_cast (x : Int) {m : Nat} (hm : 0 < m) : ((residue x m : Nat) : Int) = x % m := by
  unfold residue
  exact Int.toNat_of_nonneg (Int.emod_nonneg _ (by omega))

/-- The residue is canonical (00_scope.md R11). -/
theorem residue_lt (x : Int) {m : Nat} (hm : 0 < m) : residue x m < m := by
  have h := residue_cast x hm
  have := Int.emod_lt_of_pos x (show (0 : Int) < m by omega)
  omega

/-- The residue is congruent to the integer (00_scope.md R11). -/
theorem residue_modEq (x : Int) {m : Nat} (hm : 0 < m) : ((residue x m : Nat) : Int) ≡ x [ZMOD m] := by
  rw [residue_cast x hm]
  exact Int.mod_modEq _ _

/-- Congruent integers have one residue. -/
theorem residue_congr {x y : Int} {m : Nat} (h : x ≡ y [ZMOD m]) : residue x m = residue y m := by
  unfold residue
  rw [h]

/-- The residue of a natural number is its remainder. -/
@[simp] theorem residue_natCast (n m : Nat) : residue (n : Int) m = n % m := by
  unfold residue
  omega

/-- The Euclidean loop keeps both cofactor congruences and ends at the greatest common divisor. -/
theorem euclid_spec (u : Nat) (m : Int) :
    ∀ (k r0 r1 : Nat) (t0 t1 : Int), r1 < k → (t0 * u ≡ r0 [ZMOD m]) → (t1 * u ≡ r1 [ZMOD m]) →
      euclid k r0 r1 t0 t1 * u ≡ (Nat.gcd r0 r1 : Nat) [ZMOD m] := by
  intro k
  induction k with
  | zero => intro r0 r1 t0 t1 h; omega
  | succ k ih =>
    intro r0 r1 t0 t1 hk h0 h1
    unfold euclid
    by_cases hr : r1 = 0
    · simp [hr, h0]
    · rw [if_neg hr]
      have hlt : r0 % r1 < r1 := Nat.mod_lt _ (Nat.pos_of_ne_zero hr)
      have hg : Nat.gcd r0 r1 = Nat.gcd r1 (r0 % r1) := by
        rw [Nat.gcd_comm r0 r1, Nat.gcd_rec, Nat.gcd_comm]
      rw [hg]
      refine ih r1 (r0 % r1) t1 _ (by omega) h1 ?_
      have hd : ((r0 % r1 : Nat) : Int) = r0 - ((r0 / r1 : Nat) : Int) * r1 := by
        have h2 : ((r1 * (r0 / r1) + r0 % r1 : Nat) : Int) = r0 := by rw [Nat.div_add_mod]
        rw [Nat.cast_add, Nat.cast_mul] at h2
        linarith [mul_comm (r1 : Int) ((r0 / r1 : Nat) : Int)]
      rw [hd, sub_mul, mul_assoc]
      exact h0.sub (h1.mul_left _)

/-- Inv answers E_INV_ZERO exactly on a common factor (00_scope.md R12). -/
theorem inv_error {v : Int} {m : Nat} (h : Nat.gcd (residue v m) m ≠ 1) : inv v m = .error .invZero := by
  simp [inv, h]

/-- Inv answers the inverse of an invertible operand (00_scope.md R12). -/
theorem inv_ok {v : Int} {m : Nat} (hm : 2 ≤ m) (h : Nat.gcd (residue v m) m = 1) :
    ∃ r, inv v m = .ok r ∧ r < m ∧ v * (r : Int) ≡ 1 [ZMOD m] := by
  have hm0 : 0 < m := by omega
  refine ⟨_, by simp only [inv]; rw [if_neg (by simpa using h)], residue_lt _ hm0, ?_⟩
  have hu := residue_modEq v hm0
  have hs := euclid_spec (residue v m) m (residue v m + 1) m (residue v m) 0 1 (by omega)
    (by simpa using (Int.modEq_zero_iff_dvd.mpr (dvd_refl (m : Int))).symm) (by simp)
  rw [Nat.gcd_comm, h] at hs
  calc v * ((residue (euclid _ _ _ _ _) m : Nat) : Int)
      ≡ v * euclid (residue v m + 1) m (residue v m) 0 1 [ZMOD m] :=
        (residue_modEq _ hm0).mul_left _
    _ ≡ (residue v m : Nat) * euclid (residue v m + 1) m (residue v m) 0 1 [ZMOD m] :=
        (hu.symm).mul_right _
    _ ≡ 1 [ZMOD m] := by rw [mul_comm]; simpa using hs

/-- What Inv can answer. -/
theorem inv_cases (v : Int) {m : Nat} (hm : 2 ≤ m) :
    (Nat.gcd (residue v m) m ≠ 1 ∧ inv v m = .error .invZero) ∨
    (Nat.gcd (residue v m) m = 1 ∧ ∃ r, inv v m = .ok r ∧ r < m ∧ v * (r : Int) ≡ 1 [ZMOD m]) := by
  by_cases h : Nat.gcd (residue v m) m = 1
  · exact .inr ⟨h, inv_ok hm h⟩
  · exact .inl ⟨h, inv_error h⟩

/-- An inverse below the modulus is the only one. -/
theorem inverse_unique {v r r' : Int} {m : Nat} (h : v * r ≡ 1 [ZMOD m]) (h' : v * r' ≡ 1 [ZMOD m]) :
    r ≡ r' [ZMOD m] := by
  have h1 : r * (v * r') ≡ r * 1 [ZMOD m] := h'.mul_left r
  have h2 : r' * (v * r) ≡ r' * 1 [ZMOD m] := h.mul_left r'
  calc r ≡ r * (v * r') [ZMOD m] := by simpa using h1.symm
    _ = r' * (v * r) := by ring
    _ ≡ r' [ZMOD m] := by simpa using h2

/-- The bits of a number end below its bit length. -/
theorem lt_two_pow_bitlen (e : Nat) : e < 2 ^ bitlen e := by
  unfold bitlen
  split
  · subst e; simp
  · exact Nat.lt_log2_self

/-- Square and multiply computes the power of the bits it is given fuel for. -/
theorem powLoop_spec (m : Nat) :
    ∀ (k b e acc : Nat), e < 2 ^ k → acc < m → powLoop m k b e acc = acc * b ^ e % m := by
  intro k
  induction k with
  | zero =>
    intro b e acc he hacc
    have : e = 0 := by simpa using he
    simp [powLoop, this, Nat.mod_eq_of_lt hacc]
  | succ k ih =>
    intro b e acc he hacc
    have hm : 0 < m := by omega
    have he2 : e / 2 < 2 ^ k := by rw [pow_succ] at he; omega
    have hb : (b * b % m) ^ (e / 2) ≡ b ^ (2 * (e / 2)) [MOD m] := by
      rw [pow_mul, pow_two]
      exact (Nat.mod_modEq _ _).pow _
    unfold powLoop
    by_cases ho : e % 2 = 1
    · rw [if_pos ho, ih _ _ _ he2 (Nat.mod_lt _ hm)]
      have hpow : b ^ e = b * b ^ (2 * (e / 2)) := by
        conv_lhs => rw [show e = 2 * (e / 2) + 1 by omega]
        rw [pow_succ, mul_comm]
      rw [hpow, ← mul_assoc]
      exact (Nat.mod_modEq _ _).mul hb
    · rw [if_neg ho, ih _ _ _ he2 hacc]
      have hpow : b ^ e = b ^ (2 * (e / 2)) := by
        conv_lhs => rw [show e = 2 * (e / 2) by omega]
      rw [hpow]
      exact Nat.ModEq.mul_left _ hb

/-- The exponentiator computes the power (40_modular.md R105). -/
theorem powMod_eq (b e : Nat) {m : Nat} (hm : 2 ≤ m) : powMod b e m = b ^ e % m := by
  unfold powMod
  rw [powLoop_spec m _ _ _ _ (lt_two_pow_bitlen e) (Nat.mod_lt _ (by omega))]
  rw [Nat.mod_eq_of_lt (show 1 < m by omega), one_mul]
  exact (Nat.mod_modEq _ _).pow _

@[simp] theorem pointAdd_inf_left (p a : Nat) (Q : Point) : pointAdd p a .inf Q = .ok Q := by
  cases Q <;> rfl

@[simp] theorem pointAdd_inf_right (p a : Nat) (P : Point) : pointAdd p a P .inf = .ok P := by
  cases P <;> rfl

/-- The branches of Add on two affine points. -/
theorem pointAdd_affine (p a x1 y1 x2 y2 : Nat) :
    pointAdd p a (.affine x1 y1) (.affine x2 y2) =
      if x1 = x2 ∧ (y1 + y2) % p = 0 then .ok .inf
      else if x1 = x2 ∧ y1 = y2 then
        if y1 = 0 then .ok .inf
        else
          (inv (2 * (y1 : Int)) p).map fun v : Nat =>
            chord p x1 y1 x2 (residue ((3 * (x1 : Int) * x1 + a) * v) p)
      else
        (inv ((x2 : Int) - x1) p).map fun v : Nat =>
          chord p x1 y1 x2 (residue (((y2 : Int) - y1) * v) p) := by
  simp only [pointAdd]
  cases inv (2 * (y1 : Int)) p <;> cases inv ((x2 : Int) - x1) p <;> rfl

/-- The coordinates of a chord point are canonical. -/
theorem chord_canonical (p x1 y1 x2 lam : Nat) (hp : 0 < p) :
    ∃ x y, chord p x1 y1 x2 lam = .affine x y ∧ x < p ∧ y < p :=
  ⟨_, _, rfl, residue_lt _ hp, residue_lt _ hp⟩

/-- A ladder run cut in two. -/
theorem ladderRun_add (p a k m : Nat) : ∀ (n : Nat) (l : Ladder),
    ladderRun p a k (n + m) l = (ladderRun p a k n l).bind (ladderRun p a k m) := by
  intro n
  induction n with
  | zero => intro l; simp [ladderRun, Except.bind]
  | succ n ih =>
    intro l
    rw [show n + 1 + m = (n + m) + 1 by omega]
    simp only [ladderRun]
    cases ladderBit p a k l with
    | error c => rfl
    | ok l' => exact ih l'

/-- One iteration at the end of a run. -/
theorem ladderRun_succ (p a k n : Nat) (l : Ladder) :
    ladderRun p a k (n + 1) l = (ladderRun p a k n l).bind (ladderBit p a k) := by
  rw [ladderRun_add]
  congr 1
  funext l'
  simp only [ladderRun]
  cases ladderBit p a k l' <;> rfl

/-- An iteration moves to the next bit. -/
theorem ladderBit_i {p a k : Nat} {l l' : Ladder} (h : ladderBit p a k l = .ok l') :
    l'.i = l.i + 1 := by
  unfold ladderBit at h
  split at h
  · cases h
  · split at h
    · cases h
    · cases h; rfl

end Sys2Proof.Machine
end

