-- ==== Sys2Proof/Laws/State.lean ====
section
/-! SUPPORT. One lemma per field and update of the state, so that no later proof unfolds a record
update. -/

namespace Sys2Proof.Machine

@[simp] theorem writePt_params (s : State) (d : PReg) (P : Point) :
    (s.writePt d P).params = s.params := rfl
@[simp] theorem writePt_f (s : State) (d : PReg) (P : Point) : (s.writePt d P).f = s.f := rfl
theorem writePt_pt (s : State) (d : PReg) (P : Point) :
    (s.writePt d P).pt = s.pt.set d (s.ptReg P) := rfl
@[simp] theorem writePt_consts (s : State) (d : PReg) (P : Point) :
    (s.writePt d P).consts = s.consts := rfl
@[simp] theorem writePt_mg (s : State) (d : PReg) (P : Point) : (s.writePt d P).mg = s.mg := rfl
@[simp] theorem writePt_ctrl (s : State) (d : PReg) (P : Point) :
    (s.writePt d P).ctrl = s.ctrl := rfl
@[simp] theorem writePt_status (s : State) (d : PReg) (P : Point) :
    (s.writePt d P).status = s.status := rfl
@[simp] theorem writePt_cmd (s : State) (d : PReg) (P : Point) : (s.writePt d P).cmd = s.cmd := rfl
@[simp] theorem writePt_fcmd (s : State) (d : PReg) (P : Point) :
    (s.writePt d P).fcmd = s.fcmd := rfl
@[simp] theorem writePt_latched (s : State) (d : PReg) (P : Point) :
    (s.writePt d P).latched = s.latched := rfl
@[simp] theorem writePt_ladder (s : State) (d : PReg) (P : Point) :
    (s.writePt d P).ladder = s.ladder := rfl
@[simp] theorem writePt_busData (s : State) (d : PReg) (P : Point) :
    (s.writePt d P).busData = s.busData := rfl
@[simp] theorem writePt_turns (s : State) (d : PReg) (P : Point) :
    (s.writePt d P).turns = s.turns := rfl
@[simp] theorem writePt_draws (s : State) (d : PReg) (P : Point) :
    (s.writePt d P).draws = s.draws := rfl

@[simp] theorem endDone_params (s : State) (r : Bool) : (s.endDone r).params = s.params := rfl
@[simp] theorem endDone_f (s : State) (r : Bool) : (s.endDone r).f = s.f := rfl
@[simp] theorem endDone_pt (s : State) (r : Bool) : (s.endDone r).pt = s.pt := rfl
@[simp] theorem endDone_consts (s : State) (r : Bool) : (s.endDone r).consts = s.consts := rfl
@[simp] theorem endDone_mg (s : State) (r : Bool) : (s.endDone r).mg = s.mg := rfl
@[simp] theorem endDone_ctrl (s : State) (r : Bool) : (s.endDone r).ctrl = s.ctrl := rfl
@[simp] theorem endDone_status (s : State) (r : Bool) :
    (s.endDone r).status = { s.status with busy := false, done := true, rinf := r } := rfl
@[simp] theorem endDone_cmd (s : State) (r : Bool) : (s.endDone r).cmd = s.cmd := rfl
@[simp] theorem endDone_fcmd (s : State) (r : Bool) : (s.endDone r).fcmd = s.fcmd := rfl
@[simp] theorem endDone_latched (s : State) (r : Bool) : (s.endDone r).latched = s.latched := rfl
@[simp] theorem endDone_ladder (s : State) (r : Bool) : (s.endDone r).ladder = none := rfl
@[simp] theorem endDone_busData (s : State) (r : Bool) : (s.endDone r).busData = s.busData := rfl
@[simp] theorem endDone_turns (s : State) (r : Bool) : (s.endDone r).turns = s.turns := rfl
@[simp] theorem endDone_draws (s : State) (r : Bool) : (s.endDone r).draws = s.draws := rfl

@[simp] theorem takeFault_params (s : State) (c : FaultCode) :
    (s.takeFault c).params = s.params := rfl
@[simp] theorem takeFault_f (s : State) (c : FaultCode) : (s.takeFault c).f = s.f := rfl
@[simp] theorem takeFault_pt (s : State) (c : FaultCode) : (s.takeFault c).pt = s.pt := rfl
@[simp] theorem takeFault_consts (s : State) (c : FaultCode) :
    (s.takeFault c).consts = s.consts := rfl
@[simp] theorem takeFault_mg (s : State) (c : FaultCode) : (s.takeFault c).mg = s.mg := rfl
@[simp] theorem takeFault_ctrl (s : State) (c : FaultCode) : (s.takeFault c).ctrl = s.ctrl := rfl
@[simp] theorem takeFault_status (s : State) (c : FaultCode) :
    (s.takeFault c).status = { s.status with busy := false, fault := true, fcode := c } := rfl
@[simp] theorem takeFault_cmd (s : State) (c : FaultCode) : (s.takeFault c).cmd = s.cmd := rfl
@[simp] theorem takeFault_fcmd (s : State) (c : FaultCode) : (s.takeFault c).fcmd = s.latched := rfl
@[simp] theorem takeFault_latched (s : State) (c : FaultCode) :
    (s.takeFault c).latched = s.latched := rfl
@[simp] theorem takeFault_ladder (s : State) (c : FaultCode) : (s.takeFault c).ladder = none := rfl
@[simp] theorem takeFault_busData (s : State) (c : FaultCode) :
    (s.takeFault c).busData = s.busData := rfl
@[simp] theorem takeFault_turns (s : State) (c : FaultCode) : (s.takeFault c).turns = s.turns := rfl
@[simp] theorem takeFault_draws (s : State) (c : FaultCode) : (s.takeFault c).draws = s.draws := rfl

@[simp] theorem statusWrite_params (s : State) (v : Word32) :
    (s.statusWrite v).params = s.params := rfl
@[simp] theorem statusWrite_f (s : State) (v : Word32) : (s.statusWrite v).f = s.f := rfl
@[simp] theorem statusWrite_pt (s : State) (v : Word32) : (s.statusWrite v).pt = s.pt := rfl
@[simp] theorem statusWrite_consts (s : State) (v : Word32) :
    (s.statusWrite v).consts = s.consts := rfl
@[simp] theorem statusWrite_mg (s : State) (v : Word32) : (s.statusWrite v).mg = s.mg := rfl
@[simp] theorem statusWrite_ctrl (s : State) (v : Word32) : (s.statusWrite v).ctrl = s.ctrl := rfl
@[simp] theorem statusWrite_status (s : State) (v : Word32) :
    (s.statusWrite v).status = s.status.cleared v := rfl
@[simp] theorem statusWrite_cmd (s : State) (v : Word32) : (s.statusWrite v).cmd = s.cmd := rfl
@[simp] theorem statusWrite_fcmd (s : State) (v : Word32) : (s.statusWrite v).fcmd = s.fcmd := rfl
@[simp] theorem statusWrite_latched (s : State) (v : Word32) :
    (s.statusWrite v).latched = s.latched := rfl
@[simp] theorem statusWrite_ladder (s : State) (v : Word32) :
    (s.statusWrite v).ladder = s.ladder := rfl
@[simp] theorem statusWrite_busData (s : State) (v : Word32) :
    (s.statusWrite v).busData = s.busData := rfl
@[simp] theorem statusWrite_turns (s : State) (v : Word32) :
    (s.statusWrite v).turns = s.turns := rfl
@[simp] theorem statusWrite_draws (s : State) (v : Word32) :
    (s.statusWrite v).draws = s.draws := rfl

@[simp] theorem acceptCmd_params (s : State) (c : Word32) : (s.acceptCmd c).params = s.params := rfl
@[simp] theorem acceptCmd_f (s : State) (c : Word32) : (s.acceptCmd c).f = s.f := rfl
@[simp] theorem acceptCmd_pt (s : State) (c : Word32) : (s.acceptCmd c).pt = s.pt := rfl
@[simp] theorem acceptCmd_consts (s : State) (c : Word32) : (s.acceptCmd c).consts = s.consts := rfl
@[simp] theorem acceptCmd_mg (s : State) (c : Word32) : (s.acceptCmd c).mg = s.mg := rfl
@[simp] theorem acceptCmd_ctrl (s : State) (c : Word32) : (s.acceptCmd c).ctrl = s.ctrl := rfl
@[simp] theorem acceptCmd_status (s : State) (c : Word32) :
    (s.acceptCmd c).status = { s.status with done := false, busy := true } := rfl
@[simp] theorem acceptCmd_cmd (s : State) (c : Word32) : (s.acceptCmd c).cmd = c := rfl
@[simp] theorem acceptCmd_fcmd (s : State) (c : Word32) : (s.acceptCmd c).fcmd = s.fcmd := rfl
@[simp] theorem acceptCmd_latched (s : State) (c : Word32) : (s.acceptCmd c).latched = c := rfl
@[simp] theorem acceptCmd_ladder (s : State) (c : Word32) : (s.acceptCmd c).ladder = none := rfl
@[simp] theorem acceptCmd_busData (s : State) (c : Word32) :
    (s.acceptCmd c).busData = s.busData := rfl
@[simp] theorem acceptCmd_turns (s : State) (c : Word32) : (s.acceptCmd c).turns = s.turns := rfl
@[simp] theorem acceptCmd_draws (s : State) (c : Word32) : (s.acceptCmd c).draws = s.draws := rfl

@[simp] theorem dropCmd_params (s : State) : (s.dropCmd).params = s.params := rfl
@[simp] theorem dropCmd_f (s : State) : (s.dropCmd).f = s.f := rfl
@[simp] theorem dropCmd_pt (s : State) : (s.dropCmd).pt = s.pt := rfl
@[simp] theorem dropCmd_consts (s : State) : (s.dropCmd).consts = s.consts := rfl
@[simp] theorem dropCmd_mg (s : State) : (s.dropCmd).mg = s.mg := rfl
@[simp] theorem dropCmd_ctrl (s : State) : (s.dropCmd).ctrl = s.ctrl := rfl
@[simp] theorem dropCmd_status (s : State) :
    (s.dropCmd).status = { s.status with cmdDrop := true } := rfl
@[simp] theorem dropCmd_cmd (s : State) : (s.dropCmd).cmd = s.cmd := rfl
@[simp] theorem dropCmd_fcmd (s : State) : (s.dropCmd).fcmd = s.fcmd := rfl
@[simp] theorem dropCmd_latched (s : State) : (s.dropCmd).latched = s.latched := rfl
@[simp] theorem dropCmd_ladder (s : State) : (s.dropCmd).ladder = s.ladder := rfl
@[simp] theorem dropCmd_busData (s : State) : (s.dropCmd).busData = s.busData := rfl
@[simp] theorem dropCmd_turns (s : State) : (s.dropCmd).turns = s.turns := rfl
@[simp] theorem dropCmd_draws (s : State) : (s.dropCmd).draws = s.draws := rfl

@[simp] theorem dropData_params (s : State) : (s.dropData).params = s.params := rfl
@[simp] theorem dropData_f (s : State) : (s.dropData).f = s.f := rfl
@[simp] theorem dropData_pt (s : State) : (s.dropData).pt = s.pt := rfl
@[simp] theorem dropData_consts (s : State) : (s.dropData).consts = s.consts := rfl
@[simp] theorem dropData_mg (s : State) : (s.dropData).mg = s.mg := rfl
@[simp] theorem dropData_ctrl (s : State) : (s.dropData).ctrl = s.ctrl := rfl
@[simp] theorem dropData_status (s : State) :
    (s.dropData).status = { s.status with wrDrop := true } := rfl
@[simp] theorem dropData_cmd (s : State) : (s.dropData).cmd = s.cmd := rfl
@[simp] theorem dropData_fcmd (s : State) : (s.dropData).fcmd = s.fcmd := rfl
@[simp] theorem dropData_latched (s : State) : (s.dropData).latched = s.latched := rfl
@[simp] theorem dropData_ladder (s : State) : (s.dropData).ladder = s.ladder := rfl
@[simp] theorem dropData_busData (s : State) : (s.dropData).busData = s.busData := rfl
@[simp] theorem dropData_turns (s : State) : (s.dropData).turns = s.turns := rfl
@[simp] theorem dropData_draws (s : State) : (s.dropData).draws = s.draws := rfl

@[simp] theorem drive_params (s : State) (w : Word32) : (s.drive w).params = s.params := rfl
@[simp] theorem drive_f (s : State) (w : Word32) : (s.drive w).f = s.f := rfl
@[simp] theorem drive_pt (s : State) (w : Word32) : (s.drive w).pt = s.pt := rfl
@[simp] theorem drive_consts (s : State) (w : Word32) : (s.drive w).consts = s.consts := rfl
@[simp] theorem drive_mg (s : State) (w : Word32) : (s.drive w).mg = s.mg := rfl
@[simp] theorem drive_ctrl (s : State) (w : Word32) : (s.drive w).ctrl = s.ctrl := rfl
@[simp] theorem drive_status (s : State) (w : Word32) : (s.drive w).status = s.status := rfl
@[simp] theorem drive_cmd (s : State) (w : Word32) : (s.drive w).cmd = s.cmd := rfl
@[simp] theorem drive_fcmd (s : State) (w : Word32) : (s.drive w).fcmd = s.fcmd := rfl
@[simp] theorem drive_latched (s : State) (w : Word32) : (s.drive w).latched = s.latched := rfl
@[simp] theorem drive_ladder (s : State) (w : Word32) : (s.drive w).ladder = s.ladder := rfl
@[simp] theorem drive_busData (s : State) (w : Word32) : (s.drive w).busData = some w := rfl
@[simp] theorem drive_turns (s : State) (w : Word32) : (s.drive w).turns = s.turns := rfl
@[simp] theorem drive_draws (s : State) (w : Word32) : (s.drive w).draws = s.draws := rfl

@[simp] theorem driveUnspecified_params (s : State) : (s.driveUnspecified).params = s.params := rfl
@[simp] theorem driveUnspecified_f (s : State) : (s.driveUnspecified).f = s.f := rfl
@[simp] theorem driveUnspecified_pt (s : State) : (s.driveUnspecified).pt = s.pt := rfl
@[simp] theorem driveUnspecified_consts (s : State) : (s.driveUnspecified).consts = s.consts := rfl
@[simp] theorem driveUnspecified_mg (s : State) : (s.driveUnspecified).mg = s.mg := rfl
@[simp] theorem driveUnspecified_ctrl (s : State) : (s.driveUnspecified).ctrl = s.ctrl := rfl
@[simp] theorem driveUnspecified_status (s : State) : (s.driveUnspecified).status = s.status := rfl
@[simp] theorem driveUnspecified_cmd (s : State) : (s.driveUnspecified).cmd = s.cmd := rfl
@[simp] theorem driveUnspecified_fcmd (s : State) : (s.driveUnspecified).fcmd = s.fcmd := rfl
@[simp] theorem driveUnspecified_latched (s : State) :
    (s.driveUnspecified).latched = s.latched := rfl
@[simp] theorem driveUnspecified_ladder (s : State) : (s.driveUnspecified).ladder = s.ladder := rfl
@[simp] theorem driveUnspecified_busData (s : State) :
    (s.driveUnspecified).busData = some (Config.busyRead s.draws) := rfl
@[simp] theorem driveUnspecified_turns (s : State) : (s.driveUnspecified).turns = s.turns := rfl
@[simp] theorem driveUnspecified_draws (s : State) : (s.driveUnspecified).draws = s.draws + 1 := rfl

@[simp] theorem clearControl_params (s : State) : (s.clearControl).params = s.params := rfl
@[simp] theorem clearControl_f (s : State) : (s.clearControl).f = s.f := rfl
@[simp] theorem clearControl_pt (s : State) : (s.clearControl).pt = s.pt := rfl
@[simp] theorem clearControl_consts (s : State) : (s.clearControl).consts = s.consts := rfl
@[simp] theorem clearControl_mg (s : State) : (s.clearControl).mg = s.mg := rfl
@[simp] theorem clearControl_ctrl (s : State) : (s.clearControl).ctrl = State.reset.ctrl := rfl
@[simp] theorem clearControl_status (s : State) :
    (s.clearControl).status = State.reset.status := rfl
@[simp] theorem clearControl_cmd (s : State) : (s.clearControl).cmd = 0 := rfl
@[simp] theorem clearControl_fcmd (s : State) : (s.clearControl).fcmd = 0 := rfl
@[simp] theorem clearControl_latched (s : State) : (s.clearControl).latched = 0 := rfl
@[simp] theorem clearControl_ladder (s : State) : (s.clearControl).ladder = none := rfl
@[simp] theorem clearControl_busData (s : State) : (s.clearControl).busData = s.busData := rfl
@[simp] theorem clearControl_turns (s : State) : (s.clearControl).turns = s.turns := rfl
@[simp] theorem clearControl_draws (s : State) : (s.clearControl).draws = s.draws := rfl

@[simp] theorem writeF_params (s : State) (d : FReg) (v : Nat) : (s.writeF d v).params = s.params := by
  unfold State.writeF; split <;> rfl
@[simp] theorem writeF_pt (s : State) (d : FReg) (v : Nat) : (s.writeF d v).pt = s.pt := by
  unfold State.writeF; split <;> rfl
@[simp] theorem writeF_consts (s : State) (d : FReg) (v : Nat) : (s.writeF d v).consts = s.consts := by
  unfold State.writeF; split <;> rfl
@[simp] theorem writeF_mg (s : State) (d : FReg) (v : Nat) : (s.writeF d v).mg = s.mg := by
  unfold State.writeF; split <;> rfl
@[simp] theorem writeF_ctrl (s : State) (d : FReg) (v : Nat) : (s.writeF d v).ctrl = s.ctrl := by
  unfold State.writeF; split <;> rfl
@[simp] theorem writeF_status (s : State) (d : FReg) (v : Nat) : (s.writeF d v).status = s.status := by
  unfold State.writeF; split <;> rfl
@[simp] theorem writeF_cmd (s : State) (d : FReg) (v : Nat) : (s.writeF d v).cmd = s.cmd := by
  unfold State.writeF; split <;> rfl
@[simp] theorem writeF_fcmd (s : State) (d : FReg) (v : Nat) : (s.writeF d v).fcmd = s.fcmd := by
  unfold State.writeF; split <;> rfl
@[simp] theorem writeF_latched (s : State) (d : FReg) (v : Nat) : (s.writeF d v).latched = s.latched := by
  unfold State.writeF; split <;> rfl
@[simp] theorem writeF_ladder (s : State) (d : FReg) (v : Nat) : (s.writeF d v).ladder = s.ladder := by
  unfold State.writeF; split <;> rfl
@[simp] theorem writeF_busData (s : State) (d : FReg) (v : Nat) : (s.writeF d v).busData = s.busData := by
  unfold State.writeF; split <;> rfl
@[simp] theorem writeF_turns (s : State) (d : FReg) (v : Nat) : (s.writeF d v).turns = s.turns := by
  unfold State.writeF; split <;> rfl
@[simp] theorem writeF_draws (s : State) (d : FReg) (v : Nat) : (s.writeF d v).draws = s.draws := by
  unfold State.writeF; split <;> rfl

/-- The F file after a write: F0's storage is never written. -/
theorem writeF_f (s : State) (d : FReg) (v : Nat) :
    (s.writeF d v).f = if d = 0 then s.f else s.f.set d (s.narrow v) := by
  unfold State.writeF; split <;> rfl

/-- Reading F after a write to F: the written register holds the narrowed value, F0 reads 0, every
other register reads as before (10_state.md R21). -/
@[simp] theorem readF_writeF (s : State) (d j : FReg) (v : Nat) :
    (s.writeF d v).readF j = if j = 0 then 0 else if j = d then s.narrow v else s.readF j := by
  unfold State.readF
  rw [writeF_f]
  by_cases hj : j = 0
  · simp [hj]
  · by_cases hd : d = 0
    · have : j ≠ d := fun h => hj (h.trans hd)
      simp [hj, hd]
    · by_cases h : j = d
      · subst h; simp [hd]
      · have : (d : Nat) ≠ j := fun e => h (Fin.ext e.symm)
        simp [hj, hd, h, this]

/-- A point register after a write to the PT file. -/
@[simp] theorem getElem_writePt (s : State) (d j : PReg) (P : Point) :
    (s.writePt d P).pt[j] = if j = d then s.ptReg P else s.pt[j] := by
  by_cases h : j = d
  · subst h; simp [writePt_pt]
  · have : (d : Nat) ≠ j := fun e => h (Fin.ext e.symm)
    simp [h, writePt_pt, this]

/-- Ending a command leaves the register reads alone. -/
@[simp] theorem readF_endDone (s : State) (r : Bool) (j : FReg) : (s.endDone r).readF j = s.readF j :=
  rfl
@[simp] theorem readF_takeFault (s : State) (c : FaultCode) (j : FReg) :
    (s.takeFault c).readF j = s.readF j := rfl
@[simp] theorem readF_writePt (s : State) (d : PReg) (P : Point) (j : FReg) :
    (s.writePt d P).readF j = s.readF j := rfl
@[simp] theorem readPt_endDone (s : State) (r : Bool) (j : PReg) :
    (s.endDone r).readPt j = s.readPt j := rfl
@[simp] theorem readPt_takeFault (s : State) (c : FaultCode) (j : PReg) :
    (s.takeFault c).readPt j = s.readPt j := rfl
@[simp] theorem readPt_writeF (s : State) (d : FReg) (v : Nat) (j : PReg) :
    (s.writeF d v).readPt j = s.readPt j := by simp [State.readPt]

/-- A value that fits is kept whole. -/
theorem narrow_of_lt {s : State} {v : Nat} (h : v < 2 ^ s.params.width) : s.narrow v = v :=
  Nat.mod_eq_of_lt h

/-- What a register keeps always fits. -/
theorem narrow_lt (s : State) (v : Nat) : s.narrow v < 2 ^ s.params.width :=
  Nat.mod_lt _ (Nat.two_pow_pos _)

end Sys2Proof.Machine
end

