-- ==== Sys2Proof/Laws/Ops.lean ====
section
/-! SUPPORT. What the shared operations and exec can answer, said once: the checks, the two ways a
command ends, and the inversion of exec. -/

namespace Sys2Proof.Machine

/-- The checks of a modular command pass (30_encoding.md R87). -/
theorem checkedModulus_ok {s : State} {sel : Modulus} (hl : sel ≠ .g → s.ctrl.lock = true)
    (hm : 2 ≤ s.modulus sel) : s.checkedModulus sel = .ok (s.modulus sel) := by
  have h2 : ¬ s.modulus sel < 2 := by omega
  cases sel <;> simp_all [State.checkedModulus, needsLock]

/-- The checks of a point command pass (30_encoding.md R87). -/
theorem checkedPrime_ok {s : State} (hl : s.ctrl.lock = true) (hp : 2 ≤ s.consts.cp) :
    s.checkedPrime = .ok s.consts.cp := by
  have h2 : ¬ s.consts.cp < 2 := by omega
  simp [State.checkedPrime, hl, h2]

/-- The checks of a point command are those of a modular command with MSEL = p. -/
theorem checkedPrime_eq (s : State) : s.checkedPrime = s.checkedModulus .p := by
  simp [State.checkedPrime, State.checkedModulus, needsLock, State.modulus]

/-- What the checks of a modular command can answer. -/
theorem checkedModulus_cases (s : State) (sel : Modulus) :
    (s.checkedModulus sel = .error .cfg ∧ needsLock sel = true ∧ s.ctrl.lock = false) ∨
    (s.checkedModulus sel = .error .mod ∧ (needsLock sel = true → s.ctrl.lock = true) ∧
      s.modulus sel < 2) ∨
    (s.checkedModulus sel = .ok (s.modulus sel) ∧ (needsLock sel = true → s.ctrl.lock = true) ∧
      2 ≤ s.modulus sel) := by
  unfold State.checkedModulus
  cases needsLock sel <;> cases s.ctrl.lock <;> by_cases h : s.modulus sel < 2 <;>
    simp [h] <;> omega

/-- Inv faults with E_INV_ZERO only. -/
theorem inv_error_code {v : Int} {m : Nat} {c : FaultCode} (h : inv v m = .error c) :
    c = .invZero := by
  unfold inv at h
  simp only at h
  split at h <;> cases h
  rfl

/-- Add faults with E_INV_ZERO only (60_exceptions.md R186). -/
theorem pointAdd_error_code {p a : Nat} {P Q : Point} {c : FaultCode}
    (h : pointAdd p a P Q = .error c) : c = .invZero := by
  unfold pointAdd at h
  repeat' split at h
  all_goals first
    | cases h; done
    | (rename_i he; cases h; exact inv_error_code he)

/-- An iteration of the ladder faults with E_INV_ZERO only. -/
theorem ladderBit_error_code {p a k : Nat} {l : Ladder} {c : FaultCode}
    (h : ladderBit p a k l = .error c) : c = .invZero := by
  unfold ladderBit at h
  split at h
  · rename_i he
    cases h
    split at he
    · exact pointAdd_error_code he
    · cases he
  · split at h
    · rename_i he
      cases h
      exact pointAdd_error_code he
    · cases h

/-- The ladder faults with E_INV_ZERO only (42_scalar_mul.md R153). -/
theorem ladderRun_error_code {p a k : Nat} {c : FaultCode} : ∀ {n : Nat} {l : Ladder},
    ladderRun p a k n l = .error c → c = .invZero := by
  intro n
  induction n with
  | zero => intro l h; cases h
  | succ n ih =>
    intro l h
    simp only [ladderRun] at h
    split at h
    · rename_i he; cases h; exact ladderBit_error_code he
    · exact ih h

/-- PMUL's body faults with E_INV_ZERO only. -/
theorem scalarMul_error_code {p a k : Nat} {neg : Bool} {P : Point} {c : FaultCode}
    (h : scalarMul p a neg k P = .error c) : c = .invZero := by
  unfold scalarMul at h
  split at h
  · cases h
  · split at h
    · rename_i he; cases h; exact ladderRun_error_code he
    · cases h

/-- A coordinate faults with E_INF_COORD only. -/
theorem coord_error_code {pick : Nat → Nat → Nat} {P : Point} {c : FaultCode}
    (h : P.coord pick = .error c) : c = .infCoord := by
  cases P <;> cases h
  rfl

/-- A computation that never answers "no fault" as its fault. -/
def Honest {α : Type} (r : Except FaultCode α) : Prop := r ≠ .error .noFault

theorem honest_ok {α : Type} (v : α) : Honest (.ok v : Except FaultCode α) := by
  simp [Honest]

theorem honest_map {α β : Type} {r : Except FaultCode α} (f : α → β) (h : Honest r) :
    Honest (r.map f) := by
  cases r <;> simp_all [Honest, Except.map]

theorem honest_bind {α β : Type} {r : Except FaultCode α} {f : α → Except FaultCode β}
    (h : Honest r) (hf : ∀ v, Honest (f v)) : Honest (r.bind f) := by
  cases r with
  | error c => simpa [Honest, Except.bind] using h
  | ok v => exact hf v

theorem honest_checkedModulus (s : State) (sel : Modulus) : Honest (s.checkedModulus sel) := by
  rcases checkedModulus_cases s sel with h | h | h <;> simp [Honest, h.1]

theorem honest_checkedPrime (s : State) : Honest s.checkedPrime := by
  rw [checkedPrime_eq]; exact honest_checkedModulus s .p

theorem honest_checkedLock (s : State) : Honest s.checkedLock := by
  unfold State.checkedLock Honest
  split <;> simp

theorem honest_inv (v : Int) (m : Nat) : Honest (inv v m) := fun h => by
  cases inv_error_code h

theorem honest_pointAdd (p a : Nat) (P Q : Point) : Honest (pointAdd p a P Q) := fun h => by
  cases pointAdd_error_code h

theorem honest_scalarMul (p a k : Nat) (neg : Bool) (P : Point) : Honest (scalarMul p a neg k P) :=
  fun h => by cases scalarMul_error_code h

theorem honest_coord (pick : Nat → Nat → Nat) (P : Point) : Honest (P.coord pick) := fun h => by
  cases coord_error_code h

/-- Every command is NOP, or ends by finishing into its F destination, or into its PT destination, and
its fault code is a real one. -/
theorem exec_shape (i : Instr) (s : State) :
    (destOf i = .none ∧ exec i s = .next (s.endDone false)) ∨
    (∃ d r, destOf i = .f d ∧ exec i s = s.finishF d r ∧ Honest r) ∨
    (∃ d r, destOf i = .pt d ∧ exec i s = s.finishPt d r ∧ Honest r) := by
  cases i with
  | nop => exact .inl ⟨rfl, rfl⟩
  | madd sel d a b =>
    exact .inr (.inl ⟨d, _, rfl, rfl, honest_map _ (honest_checkedModulus s sel)⟩)
  | msub sel d a b =>
    exact .inr (.inl ⟨d, _, rfl, rfl, honest_map _ (honest_checkedModulus s sel)⟩)
  | mmul sel d a b =>
    exact .inr (.inl ⟨d, _, rfl, rfl, honest_map _ (honest_checkedModulus s sel)⟩)
  | minv sel d a =>
    exact .inr (.inl ⟨d, _, rfl, rfl,
      honest_bind (honest_checkedModulus s sel) fun m => honest_inv _ m⟩)
  | mpow sel d a b =>
    exact .inr (.inl ⟨d, _, rfl, rfl, honest_map _ (honest_checkedModulus s sel)⟩)
  | fmov d a => exact .inr (.inl ⟨d, _, rfl, rfl, honest_ok _⟩)
  | padd d a b =>
    exact .inr (.inr ⟨d, _, rfl, rfl,
      honest_bind (honest_checkedPrime s) fun p => honest_pointAdd p _ _ _⟩)
  | pdbl d a =>
    exact .inr (.inr ⟨d, _, rfl, rfl,
      honest_bind (honest_checkedPrime s) fun p => honest_pointAdd p _ _ _⟩)
  | pneg d a => exact .inr (.inr ⟨d, _, rfl, rfl, honest_map _ (honest_checkedPrime s)⟩)
  | pmul neg d a b =>
    exact .inr (.inr ⟨d, _, rfl, rfl,
      honest_bind (honest_checkedPrime s) fun p => honest_scalarMul p _ _ _ _⟩)
  | pset d a b => exact .inr (.inr ⟨d, _, rfl, rfl, honest_ok _⟩)
  | pinf d => exact .inr (.inr ⟨d, _, rfl, rfl, honest_ok _⟩)
  | pldg d => exact .inr (.inr ⟨d, _, rfl, rfl, honest_map _ (honest_checkedLock s)⟩)
  | pgetx d a => exact .inr (.inl ⟨d, _, rfl, rfl, honest_coord _ _⟩)
  | pgety d a => exact .inr (.inl ⟨d, _, rfl, rfl, honest_coord _ _⟩)
  | pmov d a => exact .inr (.inr ⟨d, _, rfl, rfl, honest_ok _⟩)

/-- Every command answers a next state: its faults are states of the block. -/
theorem exec_answers (i : Instr) (s : State) : ∃ t, exec i s = .next t := by
  rcases exec_shape i s with ⟨_, h⟩ | ⟨d, r, _, h, _⟩ | ⟨d, r, _, h, _⟩
  · exact ⟨_, h⟩
  · cases r <;> exact ⟨_, h⟩
  · cases r <;> exact ⟨_, h⟩

/-- Everything a command can do: fault with a real code, or write its destination and end. -/
theorem exec_cases {i : Instr} {s t : State} (h : exec i s = .next t) :
    (∃ c, c ≠ .noFault ∧ t = s.takeFault c) ∨
    (destOf i = .none ∧ t = s.endDone false) ∨
    (∃ d v, destOf i = .f d ∧ t = (s.writeF d v).endDone false) ∨
    (∃ d P, destOf i = .pt d ∧ t = (s.writePt d P).endDone P.isInf) := by
  rcases exec_shape i s with ⟨hd, he⟩ | ⟨d, r, hd, he, hr⟩ | ⟨d, r, hd, he, hr⟩
  · rw [he] at h
    cases h
    exact .inr (.inl ⟨hd, rfl⟩)
  · rw [he] at h
    cases r with
    | error c => cases h; exact .inl ⟨c, fun e => hr (by rw [e]), rfl⟩
    | ok v => cases h; exact .inr (.inr (.inl ⟨d, v, hd, rfl⟩))
  · rw [he] at h
    cases r with
    | error c => cases h; exact .inl ⟨c, fun e => hr (by rw [e]), rfl⟩
    | ok P => cases h; exact .inr (.inr (.inr ⟨d, P, hd, rfl⟩))

/-- A command that no operation touches elsewhere. -/
theorem sameControl_endDone {s t : State} (r : Bool) (h : SameControl s t) :
    SameControl s (t.endDone r) :=
  ⟨h.params, h.ctrl, h.cmd, h.latched, h.busData, h.turns, h.draws⟩

theorem sameControl_takeFault (s : State) (c : FaultCode) : SameControl s (s.takeFault c) :=
  ⟨rfl, rfl, rfl, rfl, rfl, rfl, rfl⟩

/-- A command that finishes an F value which fits completes with it. -/
theorem completesF_of_finish {i : Instr} {s : State} {d : FReg} {v : Nat}
    (h : exec i s = s.finishF d (.ok v)) (hv : v < 2 ^ s.params.width) : CompletesF i s d v := by
  refine ⟨_, h, ?_, ?_, by simp, by simp, by simp, ⟨by simp, by simp, by simp, by simp, by simp,
    by simp, by simp⟩, ⟨by simp, by simp, by simp⟩⟩
  · by_cases hd : d = 0 <;> simp [hd, narrow_of_lt hv]
  · intro j hj
    by_cases h0 : j = 0
    · simp [h0, State.readF]
    · simp [hj, h0]

/-- A command that finishes a Point whose coordinates fit completes with it. -/
theorem completesPt_of_finish {i : Instr} {s : State} {d : PReg} {P : Point}
    (h : exec i s = s.finishPt d (.ok P))
    (hP : ∀ x y, P = .affine x y → x < 2 ^ s.params.width ∧ y < 2 ^ s.params.width) :
    CompletesPt i s d P := by
  refine ⟨_, h, ?_, ?_, by simp, by simp, by simp, ⟨by simp, by simp, by simp, by simp, by simp,
    by simp, by simp⟩, ⟨by simp, by simp, by simp⟩⟩
  · cases P with
    | inf => simp [writePt_pt, State.ptReg]
    | affine x y =>
      obtain ⟨hx, hy⟩ := hP x y rfl
      simp [writePt_pt, State.ptReg, narrow_of_lt hx, narrow_of_lt hy]
  · intro j hj
    have : (d : Nat) ≠ j := fun e => hj (Fin.ext e.symm)
    simp [writePt_pt, this]

/-- A command whose computation faults ends with that fault. -/
theorem faultsWith_of_next {i : Instr} {s : State} {c : FaultCode}
    (h : exec i s = .next (s.takeFault c)) : FaultsWith i s c :=
  ⟨_, h, ⟨rfl, rfl, rfl, rfl, rfl, rfl, rfl, sameControl_takeFault s c⟩⟩

end Sys2Proof.Machine
end

