-- ==== Sys2Proof/Laws/Bus.lean ====
section
/-! SUPPORT. The register map and the windows: which offset names which word, the bits of a word, what
a word write leaves alone, what each access can do. -/

set_option Elab.async false

namespace Sys2Proof.Machine

/-- The bits of a one-bit word. -/
@[simp] theorem getLsbD_bitAt (n k : Nat) (b : Bool) :
    (bitAt n b).getLsbD k = (decide (k < 32) && decide (k = n) && b) := by
  unfold bitAt
  by_cases hk : k < 32 <;> by_cases hn : k < n <;> by_cases he : k = n
  all_goals simp [hk, hn, he]
  all_goals omega

@[simp] theorem getElem_bitAt (n k : Nat) (b : Bool) (h : k < 32) :
    (bitAt n b)[k] = (decide (k = n) && b) := by
  rw [← BitVec.getLsbD_eq_getElem, getLsbD_bitAt]
  simp [h]

/-- The windows 0x1000–0x1FFF (20_memory.md R62). -/
theorem target_constSlot {n j : Nat} (hn : n < 8) (hj : j < 128) :
    target (0x1000 + 0x200 * n + 4 * j) = .window (constSlot n) j := by
  unfold target
  rw [if_neg (by omega), if_pos (by omega),
    show (0x1000 + 0x200 * n + 4 * j - 0x1000) / 0x200 = n by omega,
    show (0x1000 + 0x200 * n + 4 * j) % 0x200 / 4 = j by omega]

/-- The F windows (20_memory.md R62). -/
theorem target_f (i : FReg) {j : Nat} (hj : j < 128) :
    target (0x2000 + 0x200 * i.val + 4 * j) = .window (.f i) j := by
  have hi := i.isLt
  unfold target
  rw [if_neg (by omega), if_neg (by omega), if_pos (by omega),
    show (0x2000 + 0x200 * i.val + 4 * j - 0x2000) / 0x200 = i.val by omega,
    show (0x2000 + 0x200 * i.val + 4 * j) % 0x200 / 4 = j by omega]
  congr 2
  exact Fin.ext (Nat.mod_eq_of_lt hi)

/-- The PT.x windows (20_memory.md R62). -/
theorem target_ptx (i : PReg) {j : Nat} (hj : j < 128) :
    target (0x4000 + 0x400 * i.val + 4 * j) = .window (.ptx i) j := by
  have hi := i.isLt
  unfold target
  rw [if_neg (by omega), if_neg (by omega), if_neg (by omega), if_pos (by omega),
    if_pos (by omega), show (0x4000 + 0x400 * i.val + 4 * j - 0x4000) / 0x400 = i.val by omega,
    show (0x4000 + 0x400 * i.val + 4 * j) % 0x200 / 4 = j by omega]
  congr 2
  exact Fin.ext (Nat.mod_eq_of_lt hi)

/-- The PT.y windows (20_memory.md R62). -/
theorem target_pty (i : PReg) {j : Nat} (hj : j < 128) :
    target (0x4200 + 0x400 * i.val + 4 * j) = .window (.pty i) j := by
  have hi := i.isLt
  unfold target
  rw [if_neg (by omega), if_neg (by omega), if_neg (by omega), if_pos (by omega),
    if_neg (by omega), show (0x4200 + 0x400 * i.val + 4 * j - 0x4000) / 0x400 = i.val by omega,
    show (0x4200 + 0x400 * i.val + 4 * j) % 0x200 / 4 = j by omega]
  congr 2
  exact Fin.ext (Nat.mod_eq_of_lt hi)

/-- The map names word j of a window at the window's offset plus 4·j (20_memory.md R62, R64). -/
theorem target_window (r : WinReg) {j : Nat} (hj : j < 128) :
    target (r.offset + 4 * j) = .window r j := by
  cases r with
  | const c =>
    cases c
    · exact target_constSlot (n := 0) (by decide) hj
    · exact target_constSlot (n := 1) (by decide) hj
    · exact target_constSlot (n := 2) (by decide) hj
    · exact target_constSlot (n := 3) (by decide) hj
    · exact target_constSlot (n := 4) (by decide) hj
    · exact target_constSlot (n := 5) (by decide) hj
    · exact target_constSlot (n := 6) (by decide) hj
  | mg => exact target_constSlot (n := 7) (by decide) hj
  | f i => exact target_f i hj
  | ptx i => exact target_ptx i hj
  | pty i => exact target_pty i hj

/-- A window's words lie inside the map, aligned. -/
theorem offset_bounds (r : WinReg) {j : Nat} (hj : j < 128) :
    r.offset + 4 * j < 0x8000 ∧ (r.offset + 4 * j) % 4 = 0 := by
  cases r with
  | const c => cases c <;> simp only [WinReg.offset] <;> omega
  | mg => simp only [WinReg.offset]; omega
  | f i => have := i.isLt; simp only [WinReg.offset]; omega
  | ptx i => have := i.isLt; simp only [WinReg.offset]; omega
  | pty i => have := i.isLt; simp only [WinReg.offset]; omega

/-- The block decodes an address of its map. -/
theorem decodes_of_lt (s : State) {off : Nat} (h : off < 0x8000) :
    s.decodes (s.params.base + off) = true := by
  simp [State.decodes, mapSize, h]

/-- A full-word read at an aligned offset. -/
theorem hostAccess_readAt (s : State) {off : Nat} (h : off < 0x8000) (ha : off % 4 = 0) :
    hostAccess (readAt s off) s = .next (s.readTarget (target off)) := by
  simp [hostAccess, readAt, decodes_of_lt s h, State.accessOffset, performed, ha]

/-- A full-word write at an aligned offset. -/
theorem hostAccess_writeAt (s : State) (v : Word32) {off : Nat} (h : off < 0x8000)
    (ha : off % 4 = 0) :
    hostAccess (writeAt s off v) s = .next (s.writeTarget v (target off)) := by
  simp [hostAccess, writeAt, decodes_of_lt s h, State.accessOffset, performed, ha]

/-- Word j of a window shows bits 4064 − 32j to 4095 − 32j of the value (20_memory.md R64). -/
theorem getLsbD_windowWord (v j t : Nat) (ht : t < 32) :
    (windowWord v j).getLsbD t = v.testBit (wordLow j + t) := by
  rw [windowWord, BitVec.getLsbD_ofNat, Nat.testBit_shiftRight]
  simp [ht]

/-- The bits of a value with one word replaced (20_memory.md R64). -/
theorem testBit_splice (v j : Nat) (x : Word32) (n : Nat) :
    (splice v j x).testBit n =
      if wordLow j ≤ n ∧ n < wordLow j + 32 then x.getLsbD (n - wordLow j) else v.testBit n := by
  unfold splice
  generalize wordLow j = lo
  have hx : x.toNat < 2 ^ 32 := x.isLt
  have h1 : x.toNat <<< lo + v % 2 ^ lo = 2 ^ lo * x.toNat + v % 2 ^ lo := by
    rw [Nat.shiftLeft_eq, Nat.mul_comm]
  have hlow : ∀ k, (2 ^ lo * x.toNat + v % 2 ^ lo).testBit k =
      if k < lo then v.testBit k else x.toNat.testBit (k - lo) := by
    intro k
    rw [Nat.testBit_two_pow_mul_add _ (Nat.mod_lt _ (Nat.two_pow_pos lo))]
    split <;> simp_all [Nat.testBit_mod_two_pow]
  have hlt : 2 ^ lo * x.toNat + v % 2 ^ lo < 2 ^ (lo + 32) := by
    have : v % 2 ^ lo < 2 ^ lo := Nat.mod_lt _ (Nat.two_pow_pos lo)
    rw [pow_add]
    nlinarith [Nat.two_pow_pos lo]
  rw [Nat.add_assoc, h1, Nat.shiftLeft_eq, Nat.mul_comm (v >>> (lo + 32))]
  rw [Nat.testBit_two_pow_mul_add _ hlt]
  by_cases ha : n < lo + 32
  · rw [if_pos ha, hlow]
    by_cases hb : n < lo
    · rw [if_pos hb, if_neg (by omega)]
    · rw [if_neg hb, if_pos ⟨by omega, ha⟩]
      rfl
  · rw [if_neg ha, if_neg (by omega), Nat.testBit_shiftRight]
    congr 1
    omega

/-- What a windowed register reads after a write to one: the written register holds the narrowed
value, F0 nothing, every other one its own. -/
theorem regValue_putReg (s : State) (v : Nat) (r r' : WinReg) :
    (s.putReg v r).regValue r' =
      if r' = r then (if r = .f 0 then 0 else s.narrow v) else s.regValue r' := by
  cases r with
  | const c =>
    cases r' with
    | const c' => cases c <;> cases c' <;> simp [State.putReg, State.regValue, CurveParams.put,
        CurveParams.get]
    | _ => simp [State.putReg, State.regValue, State.readF]
  | mg => cases r' <;> simp [State.putReg, State.regValue, State.readF]
  | f i =>
    cases r' with
    | f j =>
      simp only [State.putReg, State.regValue, readF_writeF, WinReg.f.injEq]
      by_cases hj : j = i
      · subst hj; by_cases h0 : j = 0 <;> simp [h0]
      · by_cases h0 : j = 0
        · subst h0
          simp [State.readF, hj]
        · simp [h0, hj]
    | _ => simp [State.putReg, State.regValue]
  | ptx i =>
    cases r' with
    | ptx j =>
      simp only [State.putReg, State.regValue, WinReg.ptx.injEq]
      by_cases hj : j = i
      · subst hj; simp
      · have : (i : Nat) ≠ j := fun e => hj (Fin.ext e.symm)
        simp [hj, this]
    | pty j =>
      simp only [State.putReg, State.regValue]
      by_cases hj : j = i
      · subst hj; simp
      · have : (i : Nat) ≠ j := fun e => hj (Fin.ext e.symm)
        simp [this]
    | _ => simp [State.putReg, State.regValue, State.readF]
  | pty i =>
    cases r' with
    | pty j =>
      simp only [State.putReg, State.regValue, WinReg.pty.injEq]
      by_cases hj : j = i
      · subst hj; simp
      · have : (i : Nat) ≠ j := fun e => hj (Fin.ext e.symm)
        simp [hj, this]
    | ptx j =>
      simp only [State.putReg, State.regValue]
      by_cases hj : j = i
      · subst hj; simp
      · have : (i : Nat) ≠ j := fun e => hj (Fin.ext e.symm)
        simp [this]
    | _ => simp [State.putReg, State.regValue, State.readF]

/-- A write to a windowed register leaves everything but the register files alone. -/
theorem putReg_rest (s : State) (v : Nat) (r : WinReg) :
    SameControl s (s.putReg v r) ∧ (s.putReg v r).status = s.status ∧
      (s.putReg v r).fcmd = s.fcmd ∧ (s.putReg v r).ladder = s.ladder ∧
      ∀ i : PReg, (s.putReg v r).pt[i].inf = s.pt[i].inf := by
  cases r with
  | const c => exact ⟨⟨rfl, rfl, rfl, rfl, rfl, rfl, rfl⟩, rfl, rfl, rfl, fun _ => rfl⟩
  | mg => exact ⟨⟨rfl, rfl, rfl, rfl, rfl, rfl, rfl⟩, rfl, rfl, rfl, fun _ => rfl⟩
  | f i =>
    refine ⟨⟨?_, ?_, ?_, ?_, ?_, ?_, ?_⟩, ?_, ?_, ?_, fun _ => ?_⟩ <;> simp [State.putReg]
  | ptx i =>
    refine ⟨⟨rfl, rfl, rfl, rfl, rfl, rfl, rfl⟩, rfl, rfl, rfl, fun j => ?_⟩
    by_cases hj : j = i
    · subst hj; simp [State.putReg]
    · have : (i : Nat) ≠ j := fun e => hj (Fin.ext e.symm)
      simp [State.putReg, this]
  | pty i =>
    refine ⟨⟨rfl, rfl, rfl, rfl, rfl, rfl, rfl⟩, rfl, rfl, rfl, fun j => ?_⟩
    by_cases hj : j = i
    · subst hj; simp [State.putReg]
    · have : (i : Nat) ≠ j := fun e => hj (Fin.ext e.symm)
      simp [State.putReg, this]

end Sys2Proof.Machine
end

