-- ==== Sys2Proof/Laws/PerInstr.lean ====
section
/-! SUPPORT. Per constructor: the fields of every command are a legal word's fields (30_encoding.md
R86). -/

set_option Elab.async false

namespace Sys2Proof.Laws.Legal

/-- The fields of the command meet every condition of 30_encoding.md R86. -/
abbrev Statement (i : Instr) : Prop := i.fields.legal = true

/-- A PT register's field has bit 3 zero. -/
theorem fieldOk_pt (r : PReg) : Fields.fieldOk .pt (Encoder.pt r) = true := by
  revert r; decide

/-- No modulus is encoded by the reserved selector. -/
theorem msel_ne_three (m : Modulus) : (Encoder.msel m != 3) = true := by
  cases m <;> decide

theorem nop : Statement .nop := by decide
theorem madd (sel : Modulus) (d a b : FReg) : Statement (.madd sel d a b) := by
  simpa [Statement, Instr.fields, Encoder.blank, Fields.legal, Fields.opcodeKnown, Fields.rsvZero,
    Fields.negOnlyInPmul, Fields.mselOnlyInModular, Fields.modular, Fields.mselNotReserved,
    Fields.fieldsOk, Fields.classes, Fields.fieldOk] using msel_ne_three sel
theorem msub (sel : Modulus) (d a b : FReg) : Statement (.msub sel d a b) := by
  simpa [Statement, Instr.fields, Encoder.blank, Fields.legal, Fields.opcodeKnown, Fields.rsvZero,
    Fields.negOnlyInPmul, Fields.mselOnlyInModular, Fields.modular, Fields.mselNotReserved,
    Fields.fieldsOk, Fields.classes, Fields.fieldOk] using msel_ne_three sel
theorem mmul (sel : Modulus) (d a b : FReg) : Statement (.mmul sel d a b) := by
  simpa [Statement, Instr.fields, Encoder.blank, Fields.legal, Fields.opcodeKnown, Fields.rsvZero,
    Fields.negOnlyInPmul, Fields.mselOnlyInModular, Fields.modular, Fields.mselNotReserved,
    Fields.fieldsOk, Fields.classes, Fields.fieldOk] using msel_ne_three sel
theorem minv (sel : Modulus) (d a : FReg) : Statement (.minv sel d a) := by
  simpa [Statement, Instr.fields, Encoder.blank, Fields.legal, Fields.opcodeKnown, Fields.rsvZero,
    Fields.negOnlyInPmul, Fields.mselOnlyInModular, Fields.modular, Fields.mselNotReserved,
    Fields.fieldsOk, Fields.classes, Fields.fieldOk] using msel_ne_three sel
theorem mpow (sel : Modulus) (d a b : FReg) : Statement (.mpow sel d a b) := by
  simpa [Statement, Instr.fields, Encoder.blank, Fields.legal, Fields.opcodeKnown, Fields.rsvZero,
    Fields.negOnlyInPmul, Fields.mselOnlyInModular, Fields.modular, Fields.mselNotReserved,
    Fields.fieldsOk, Fields.classes, Fields.fieldOk] using msel_ne_three sel
theorem fmov (d a : FReg) : Statement (.fmov d a) := by
  simp [Statement, Instr.fields, Encoder.blank, Fields.legal, Fields.opcodeKnown, Fields.rsvZero,
    Fields.negOnlyInPmul, Fields.mselOnlyInModular, Fields.mselNotReserved, Fields.fieldsOk,
    Fields.classes, Fields.fieldOk]
theorem padd (d a b : PReg) : Statement (.padd d a b) := by
  have hd := fieldOk_pt d
  have ha := fieldOk_pt a
  have hb := fieldOk_pt b
  simp [Statement, Instr.fields, Encoder.blank, Fields.legal, Fields.opcodeKnown, Fields.rsvZero,
    Fields.negOnlyInPmul, Fields.mselOnlyInModular, Fields.mselNotReserved, Fields.fieldsOk,
    Fields.classes, hd, ha, hb]
theorem pdbl (d a : PReg) : Statement (.pdbl d a) := by revert d a; decide
theorem pneg (d a : PReg) : Statement (.pneg d a) := by revert d a; decide
theorem pmul (neg : Bool) (d a : PReg) (b : FReg) : Statement (.pmul neg d a b) := by
  have hd := fieldOk_pt d
  have ha := fieldOk_pt a
  simp [Statement, Instr.fields, Encoder.blank, Fields.legal, Fields.opcodeKnown, Fields.rsvZero,
    Fields.negOnlyInPmul, Fields.mselOnlyInModular, Fields.mselNotReserved, Fields.fieldsOk,
    Fields.classes, hd, ha]
  rfl
theorem pset (d : PReg) (a b : FReg) : Statement (.pset d a b) := by
  have hd := fieldOk_pt d
  simp [Statement, Instr.fields, Encoder.blank, Fields.legal, Fields.opcodeKnown, Fields.rsvZero,
    Fields.negOnlyInPmul, Fields.mselOnlyInModular, Fields.mselNotReserved, Fields.fieldsOk,
    Fields.classes, hd]
  exact ⟨rfl, rfl⟩
theorem pinf (d : PReg) : Statement (.pinf d) := by revert d; decide
theorem pldg (d : PReg) : Statement (.pldg d) := by revert d; decide
theorem pgetx (d : FReg) (a : PReg) : Statement (.pgetx d a) := by revert d a; decide
theorem pgety (d : FReg) (a : PReg) : Statement (.pgety d a) := by revert d a; decide
theorem pmov (d a : PReg) : Statement (.pmov d a) := by revert d a; decide

end Sys2Proof.Laws.Legal
end

