-- ==== Sys2Proof/Laws/Decode.lean ====
section
/-! SUPPORT. The field layout both ways, and the decoder's small checks on the encoder's fields. -/

set_option Elab.async false

namespace Sys2Proof

/-- The fields of the word with given fields are those fields (30_encoding.md R80). -/
theorem Fields.ofWord_toWord (x : Fields) : Fields.ofWord x.toWord = x := by
  obtain ⟨opc, msel, d, a, b, neg, rsv⟩ := x
  simp only [Fields.ofWord, Fields.toWord, Fields.mk.injEq]
  refine ⟨?_, ?_, ?_, ?_, ?_, ?_, ?_⟩ <;>
  · apply BitVec.eq_of_getLsbD_eq
    intro i hi
    interval_cases i <;> simp

/-- The word with the fields of a word is that word: no bit is outside the seven fields. -/
theorem Fields.toWord_ofWord (w : Word32) : (Fields.ofWord w).toWord = w := by
  simp only [Fields.ofWord, Fields.toWord]
  apply BitVec.eq_of_getLsbD_eq
  intro i hi
  interval_cases i <;> simp

/-- Decoding a word with given fields is decoding the fields. -/
theorem decode_toWord (x : Fields) : decode x.toWord = decodeFields x := by
  rw [decode, Fields.ofWord_toWord]

@[simp] theorem Decoder.pt_encode (r : PReg) : Decoder.pt (Encoder.pt r) = .ok r := by
  revert r; decide

@[simp] theorem Decoder.f_encode (r : FReg) : Decoder.f (Encoder.f r) = r := by
  revert r; decide

theorem Decoder.modulus_encode (m : Modulus) (x : Fields) (h : x.msel = Encoder.msel m) :
    Decoder.modulus x = .ok m := by
  cases m <;> simp [Decoder.modulus, h, Encoder.msel]

theorem Encoder.f_decode (v : BitVec 4) : Encoder.f (Decoder.f v) = v := by
  simp [Encoder.f, Decoder.f]

theorem Encoder.pt_decode {v : BitVec 4} {r : PReg} (h : Decoder.pt v = .ok r) :
    Encoder.pt r = v := by
  unfold Decoder.pt at h
  split at h
  · cases h; simp [Encoder.pt]
  · cases h

end Sys2Proof
end

