-- ==== Sys2Proof/Laws/Step.lean ====
section
/-! SUPPORT. Everything a step can do, said once: whose turn it was and what that turn answers. -/

namespace Sys2Proof.Machine

/-- The step by whose turn it is. -/
theorem step_nil {s : State} (h : s.turns = []) : step s = sequencerTurn s := by
  simp [step, advance, h]

theorem step_cons {s : State} {x : Turn} {rest : List Turn} (h : s.turns = x :: rest) :
    step s = takeTurn x { s with turns := rest } := by
  simp [step, advance, h]

/-- A run of the machine begins with its first step. -/
theorem core_run_succ {s t : State} (n : Nat) (h : step s = .next t) :
    Sys2Proof.core.run (n + 1) s = Sys2Proof.core.run n t := by
  have run_succ (M : Host.Core) (s t : M.State) (h : M.step s = .next t) :
      M.run (n + 1) s = M.run n t := by
    simp [Host.Core.run, h]
  exact run_succ Sys2Proof.core s t h

/-- Every step is a turn of the sequencer, the engine, the host or the reset input. -/
theorem step_cases {s t : State} (h : step s = .next t) :
    (s.turns = [] ∧ sequencerTurn s = .next t) ∨
    (∃ rest, s.turns = .sequencer :: rest ∧ sequencerTurn { s with turns := rest } = .next t) ∨
    (∃ rest, s.turns = .engine :: rest ∧ t = engineTurn { s with turns := rest }) ∨
    (∃ a rest, s.turns = .host a :: rest ∧ hostAccess a { s with turns := rest } = .next t) ∨
    (∃ c rest, s.turns = .reset c :: rest ∧ t = State.hardReset { s with turns := rest }) := by
  cases ht : s.turns with
  | nil => exact .inl ⟨rfl, by rwa [step_nil ht] at h⟩
  | cons x rest =>
    rw [step_cons ht] at h
    cases x with
    | host a => exact .inr (.inr (.inr (.inl ⟨a, rest, rfl, h⟩)))
    | sequencer => exact .inr (.inl ⟨rest, rfl, h⟩)
    | engine => cases h; exact .inr (.inr (.inl ⟨rest, rfl, rfl⟩))
    | reset c => cases h; exact .inr (.inr (.inr (.inr ⟨c, rest, rfl, rfl⟩)))

/-- The sequencer's turn: nothing while Idle, a command that ends while Busy. -/
theorem sequencerTurn_cases {s t : State} (h : sequencerTurn s = .next t) :
    (s.status.busy = false ∧ t = s) ∨
    (s.status.busy = true ∧ ∃ i, decode s.latched = .ok i ∧ exec i s = .next t) ∨
    (s.status.busy = true ∧ (∃ e, decode s.latched = .error e) ∧ t = s.takeFault .illegal) := by
  unfold sequencerTurn at h
  cases hb : s.status.busy with
  | false => simp [hb] at h; exact .inl ⟨rfl, h.symm⟩
  | true =>
    simp only [hb, if_true] at h
    cases hd : decode s.latched with
    | ok i => rw [hd] at h; exact .inr (.inl ⟨rfl, i, rfl, h⟩)
    | error e => rw [hd] at h; cases h; exact .inr (.inr ⟨rfl, ⟨e, rfl⟩, rfl⟩)

/-- The engine's turn: nothing, or inside a PMUL that passes its checks the loading of the engine, an
iteration, or the fault of one. -/
theorem engineTurn_cases (s : State) :
    engineTurn s = s ∨
    ∃ neg d a b, s.status.busy = true ∧ decode s.latched = .ok (.pmul neg d a b) ∧
      s.ctrl.lock = true ∧ 2 ≤ s.consts.cp ∧ s.readF b ≠ 0 ∧ s.readPt a ≠ .inf ∧
      ((s.ladder = none ∧ engineTurn s =
          { s with ladder := some (ladderStart (ladderPoint s.consts.cp neg (s.readPt a))) }) ∨
       (∃ l l', s.ladder = some l ∧ l.i < bitlen (s.readF b) ∧
          ladderBit s.consts.cp s.consts.ca (s.readF b) l = .ok l' ∧
          engineTurn s = { s with ladder := some l' }) ∨
       (∃ l c, s.ladder = some l ∧ l.i < bitlen (s.readF b) ∧
          ladderBit s.consts.cp s.consts.ca (s.readF b) l = .error c ∧
          engineTurn s = s.takeFault c)) := by
  unfold engineTurn
  split
  case isFalse => exact .inl rfl
  rename_i hb
  split
  case h_2 => exact .inl rfl
  case h_3 => exact .inl rfl
  rename_i neg d a b hd
  unfold engineStep
  rw [checkedPrime_eq]
  rcases checkedModulus_cases s .p with h | h | h
  · rw [h.1]; exact .inl rfl
  · rw [h.1]; exact .inl rfl
  · obtain ⟨h, hl, hp⟩ := h
    rw [h]
    simp only
    split
    · exact .inl rfl
    · rename_i hk
      push Not at hk
      cases hs : s.ladder with
      | none =>
        exact .inr ⟨neg, d, a, b, hb, hd, hl rfl, hp, hk.1, hk.2, .inl ⟨rfl, rfl⟩⟩
      | some l =>
        simp only
        split
        · rename_i hi
          cases hbit : ladderBit (s.modulus .p) s.consts.ca (s.readF b) l with
          | error c =>
            exact .inr ⟨neg, d, a, b, hb, hd, hl rfl, hp, hk.1, hk.2,
              .inr (.inr ⟨l, c, rfl, hi, hbit, rfl⟩)⟩
          | ok l' =>
            exact .inr ⟨neg, d, a, b, hb, hd, hl rfl, hp, hk.1, hk.2,
              .inr (.inl ⟨l, l', rfl, hi, hbit, rfl⟩)⟩
        · exact .inl rfl

/-- A host access that is answered was inside the map. -/
theorem hostAccess_cases {a : Access} {s t : State} (h : hostAccess a s = .next t) :
    s.params.base ≤ a.addr ∧ a.addr < s.params.base + 0x8000 ∧
      t = s.accessOffset (a.addr - s.params.base) a := by
  unfold hostAccess at h
  split at h
  · rename_i hd
    cases h
    simp only [State.decodes, mapSize, Bool.and_eq_true, decide_eq_true_eq] at hd
    exact ⟨hd.1, of_decide_eq_true hd.2, rfl⟩
  · cases h

/-- What an answered access can do: nothing but drive the bus, or write one target with a full word at
an aligned offset. -/
theorem accessOffset_cases (s : State) (off : Nat) (a : Access) :
    (∃ w n, s.accessOffset off a = { s with busData := w, draws := n }) ∨
    (∃ v, a.kind = .write v ∧ off % 4 = 0 ∧ a.lanes = 0xF ∧
      s.accessOffset off a = s.writeTarget v (target off)) := by
  unfold State.accessOffset
  cases hk : a.kind with
  | read =>
    left
    simp only
    split
    · unfold State.readTarget
      split
      all_goals first
        | exact ⟨_, _, rfl⟩
        | (split <;> exact ⟨_, _, rfl⟩)
    · exact ⟨_, _, rfl⟩
  | write v =>
    simp only
    split
    · rename_i hp
      simp only [performed, Bool.and_eq_true, beq_iff_eq] at hp
      exact .inr ⟨v, rfl, hp.1, hp.2, rfl⟩
    · exact .inl ⟨s.busData, s.draws, rfl⟩

/-- What a full-word write can do to the state. -/
theorem writeTarget_cases (s : State) (v : Word32) (g : Target) :
    s.writeTarget v g = s ∨
    (g = .ctrl ∧ v.getLsbD 2 = true ∧ s.writeTarget v g = s.softReset) ∨
    (g = .ctrl ∧ v.getLsbD 2 = false ∧ s.writeTarget v g =
      { s with ctrl := { ie := v.getLsbD 0, lock := s.ctrl.lock || v.getLsbD 1 } }) ∨
    s.writeTarget v g = s.statusWrite v ∨
    (s.status.busy = false ∧ s.status.fault = false ∧ s.writeTarget v g = s.acceptCmd v) ∨
    s.writeTarget v g = s.dropCmd ∨ s.writeTarget v g = s.dropData ∨
    (s.status.busy = false ∧ ∃ pt' : Vector PtReg 8, s.writeTarget v g = { s with pt := pt' } ∧
      ∀ i : PReg, pt'[i].x = s.pt[i].x ∧ pt'[i].y = s.pt[i].y) ∨
    (∃ r j, g = .window r j ∧ s.status.busy = false ∧ (s.ctrl.lock = true → r.lockable = false) ∧
      s.writeTarget v g = s.putReg (splice (s.regValue r) j v) r) := by
  cases g with
  | id => exact .inl rfl
  | param => exact .inl rfl
  | fcmd => exact .inl rfl
  | reserved => exact .inl rfl
  | ctrl =>
    simp only [State.writeTarget, State.ctrlWrite]
    by_cases hv : v.getLsbD 2 = true
    · exact .inr (.inl ⟨by simp, hv, if_pos hv⟩)
    · exact .inr (.inr (.inl ⟨by simp, by simpa using hv, if_neg hv⟩))
  | status => exact .inr (.inr (.inr (.inl rfl)))
  | cmd =>
    simp only [State.writeTarget, State.cmdWrite]
    by_cases hc : (!s.status.busy && !s.status.fault) = true
    · rw [if_pos hc]
      simp only [Bool.and_eq_true, Bool.not_eq_true'] at hc
      exact .inr (.inr (.inr (.inr (.inl ⟨hc.1, hc.2, rfl⟩))))
    · rw [if_neg hc]
      exact .inr (.inr (.inr (.inr (.inr (.inl rfl)))))
  | ptinf =>
    simp only [State.writeTarget, State.ptinfWrite]
    by_cases hb : s.status.busy = true
    · rw [if_pos hb]
      exact .inr (.inr (.inr (.inr (.inr (.inr (.inl rfl))))))
    · rw [if_neg hb]
      refine .inr (.inr (.inr (.inr (.inr (.inr (.inr (.inl ⟨by simpa using hb, _, rfl, fun i => ?_⟩)))))))
      simp
  | window r j =>
    simp only [State.writeTarget, State.windowWrite]
    by_cases hc : (s.status.busy || s.ctrl.lock && r.lockable) = true
    · simp [hc]
    · rw [if_neg hc]
      refine .inr (.inr (.inr (.inr (.inr (.inr (.inr (.inr ⟨r, j, rfl, ?_, ?_, rfl⟩)))))))
      · cases hb : s.status.busy <;> simp_all
      · intro hl
        cases hr : r.lockable <;> simp_all

end Sys2Proof.Machine
end

