-- ==== Sys2Proof/Tests/Slice0.lean ====
section
/-! SUPPORT. The model's own tests. Words and expected results are those of 95_test_vectors.md (the
name of a vector stands in the test's comment) or are written out by hand from 30_encoding.md R80, R85.
Last, one witness for every statement that has hypotheses. -/

set_option Elab.async false

namespace Sys2Proof.Tests

open Sys2Proof Sys2Proof.Machine

/-! ### Legality: one ill-formed word per check of 30_encoding.md R86 -/

/-- The fields of the legal word MADD.g F11, F1, F2. -/
def good : Fields := { opc := 0x01, msel := 2, d := 11, a := 1, b := 2, neg := 0, rsv := 0 }

theorem smoke_good_is_legal : good.legal = true := by decide
theorem smoke_reserved_opcode :
    ({ good with opc := 0x07 } : Fields).opcodeKnown = false ∧
      ({ good with opc := 0x07 } : Fields).legal = false ∧
      ({ good with opc := 0x0F } : Fields).opcodeKnown = false ∧
      ({ good with opc := 0x1A } : Fields).opcodeKnown = false ∧
      ({ good with opc := 0x3F } : Fields).legal = false := by decide
theorem smoke_reserved_bits :
    ({ good with rsv := 1 } : Fields).rsvZero = false ∧
      ({ good with rsv := 1 } : Fields).legal = false := by decide
theorem smoke_neg_outside_pmul :
    ({ good with neg := 1 } : Fields).negOnlyInPmul = false ∧
      ({ good with neg := 1 } : Fields).legal = false := by decide
theorem smoke_msel_outside_modular :
    ({ good with opc := 0x06, b := 0 } : Fields).mselOnlyInModular = false ∧
      ({ good with opc := 0x06, b := 0 } : Fields).legal = false := by decide
theorem smoke_msel_reserved :
    ({ good with msel := 3 } : Fields).mselNotReserved = false ∧
      ({ good with msel := 3 } : Fields).legal = false := by decide
theorem smoke_unused_field :
    ({ good with opc := 0x04 } : Fields).fieldsOk = false ∧
      ({ good with opc := 0x04 } : Fields).legal = false := by decide
theorem smoke_pt_field_bit_3 :
    ({ good with opc := 0x15, msel := 0, d := 8, a := 0, b := 0 } : Fields).fieldsOk = false ∧
      ({ good with opc := 0x15, msel := 0, d := 8, a := 0, b := 0 } : Fields).legal = false := by
  decide
/-- The constraint column of 30_encoding.md R90. -/
theorem smoke_pseudo_constraint :
    (Pseudo.mdiv .p 3 3 4).wellFormed = false ∧ (Pseudo.psub 2 2 1).wellFormed = false ∧
      (Pseudo.mdiv .p 3 4 3).wellFormed = true := by decide

/-! ### Decoding: one word per constructor -/

/-- 00000000000 0 0000 0000 0000 00 000000 (V-E1) -/
theorem decode_nop : decode 0b00000000000000000000000000000000 = .ok .nop := by decide
/-- 00000000000 0 0010 0001 1011 10 000001 (V-E2) -/
theorem decode_madd : decode 0b00000000000000100001101110000001 = .ok (.madd .g 11 1 2) := by decide
/-- 00000000000 0 0010 0011 1011 10 000010 (V-M2) -/
theorem decode_msub : decode 0b00000000000000100011101110000010 = .ok (.msub .g 11 3 2) := by decide
/-- 00000000000 0 0010 0001 1011 01 000011, the modulus n -/
theorem decode_mmul : decode 0b00000000000000100001101101000011 = .ok (.mmul .n 11 1 2) := by decide
/-- 00000000000 0 0000 0110 0110 00 000100 (L3.3) -/
theorem decode_minv : decode 0b00000000000000000110011000000100 = .ok (.minv .p 6 6) := by decide
/-- 00000000000 0 0101 0100 1011 10 000101 (V-M5) -/
theorem decode_mpow : decode 0b00000000000001010100101110000101 = .ok (.mpow .g 11 4 5) := by decide
/-- 00000000000 0 0000 0001 1011 00 000110 (V-M9) -/
theorem decode_fmov : decode 0b00000000000000000001101100000110 = .ok (.fmov 11 1) := by decide
/-- 00000000000 0 0001 0000 0010 00 010000 (V-P1) -/
theorem decode_padd : decode 0b00000000000000010000001000010000 = .ok (.padd 2 0 1) := by decide
/-- 00000000000 0 0000 0111 0010 00 010001 (V-P6) -/
theorem decode_pdbl : decode 0b00000000000000000111001000010001 = .ok (.pdbl 2 7) := by decide
/-- 00000000000 0 0000 0111 0010 00 010010 (V-P7) -/
theorem decode_pneg : decode 0b00000000000000000111001000010010 = .ok (.pneg 2 7) := by decide
/-- 00000000000 0 0001 0111 0010 00 010011 (V-S6) and, with NEG, V-S10 -/
theorem decode_pmul : decode 0b00000000000000010111001000010011 = .ok (.pmul false 2 7 1) ∧
    decode 0b00000000000110000000001000010011 = .ok (.pmul true 2 0 8) := by decide
/-- 00000000000 0 0111 0110 0101 00 010100 (V-P12) -/
theorem decode_pset : decode 0b00000000000001110110010100010100 = .ok (.pset 5 6 7) := by decide
/-- 00000000000 0 0000 0000 0001 00 010101 (L3.4) -/
theorem decode_pinf : decode 0b00000000000000000000000100010101 = .ok (.pinf 1) := by decide
/-- 00000000000 0 0000 0000 0011 00 010110 (V-P8) -/
theorem decode_pldg : decode 0b00000000000000000000001100010110 = .ok (.pldg 3) := by decide
/-- 00000000000 0 0000 0111 1100 00 010111 (V-P11) -/
theorem decode_pgetx : decode 0b00000000000000000111110000010111 = .ok (.pgetx 12 7) := by decide
/-- 00000000000 0 0000 0001 1100 00 011000 (V-P10) -/
theorem decode_pgety : decode 0b00000000000000000001110000011000 = .ok (.pgety 12 1) := by decide
/-- 00000000000 0 0000 0111 0100 00 011001 (V-P9) -/
theorem decode_pmov : decode 0b00000000000000000111010000011001 = .ok (.pmov 4 7) := by decide

/-- V-E4 to V-E10, each with the check of 30_encoding.md R87 that fails first. -/
theorem decode_rejects :
    decode 0x00021BC1 = .error .reservedModulus ∧ decode 0x00000007 = .error .reservedOpcode ∧
      decode 0x00200000 = .error .reservedBits ∧ decode 0x00121B81 = .error .negNotAllowed ∧
      decode 0x00001B86 = .error .mselNotAllowed ∧ decode 0x00052B84 = .error .unusedField ∧
      decode 0x00000815 = .error .pointRegister := by decide

/-- Words of L3.2 and L3.4. -/
theorem encode_words :
    encode (.pmul false 1 0 1) = 0x00010113 ∧ encode (.madd .n 5 1 2) = 0x00021541 ∧
      encode (.pgetx 3 3) = 0x00003317 ∧ encode (.minv .p 3 2) = 0x00002304 := by decide

/-- R90 and R89 on one example each. -/
theorem expand_psub : (Pseudo.psub 2 0 1).expand = [.pneg 2 1, .padd 2 0 2] := by decide
theorem assembly_pmul_neg : (Instr.pmul true 2 0 1).assembly = "PMUL.neg PT2, PT0, F1" := by decide

theorem table_word_numbering : decodeTableWord 32 0x00010210 = some (.padd 2 0 1) ∧
    decodeTableWord 32 0x00000007 = none := by decide

/-! ### Commands: one step each -/

/-- A state of W = 256 with field registers F1 to F8, F12 and F13, curve constants and points given. -/
def bench (k : CurveParams) (mg : Nat) (lock : Bool) (fs : Vector Nat 16) (ps : Vector PtReg 8) :
    State :=
  { State.reset with consts := k, mg := mg, ctrl := { ie := false, lock := lock }, f := fs, pt := ps }

/-- E17 of 95_test_vectors.md. -/
def e17 : CurveParams := { cp := 17, ca := 2, cb := 2, cgx := 5, cgy := 1, cn := 19, ch := 1 }

/-- T17 of 95_test_vectors.md; it has no generator there. -/
def t17 : CurveParams := { cp := 17, ca := 1, cb := 0, cgx := 0, cgy := 0, cn := 2, ch := 8 }

def pt (x y : Nat) : PtReg := { inf := false, x := x, y := y }

/-- A PT register that reads as INF and still holds coordinates. -/
def ptInf : PtReg := { inf := true, x := 3, y := 4 }

/-- The start state of L2.1 and L2.2. -/
def fieldBench (mg : Nat) : State :=
  bench e17 mg false #v[0, 20, 9, 3, 5, 6, 0, 0, 23, 0, 0, 77, 6, 7, 0, 0]
    (Vector.replicate 8 ptInf)

/-- The start state of L2.3 and L2.4, with PT5 = (22, 1) and PT6 as given. -/
def pointBench (p6 : PtReg) : State :=
  bench e17 23 true #v[0, 13, 0, 19, 1, 2 ^ 255, 22, 1, 3, 20, 0, 0, 77, 0, 0, 0]
    #v[pt 5 1, pt 6 3, pt 9 9, pt 9 9, pt 9 9, pt 22 1, p6, ptInf]

/-- The same machine on T17 with PT0 = (0, 0), F1 = 5, F2 = 6. -/
def twoBench : State :=
  bench t17 0 true #v[0, 5, 6, 1, 0, 0, 0, 0, 0, 0, 0, 0, 0, 0, 0, 0]
    #v[pt 0 0, pt 9 9, ptInf, ptInf, ptInf, ptInf, ptInf, ptInf]

/-- The composite "prime" 15 of V-P21. -/
def compositeBench : State :=
  bench { e17 with cp := 15, ca := 0 } 15 true #v[0, 1, 0, 0, 0, 0, 0, 0, 0, 0, 0, 0, 6, 7, 0, 0]
    #v[pt 1 3, pt 9 9, ptInf, ptInf, ptInf, ptInf, ptInf, ptInf]

/-- The step that runs a word, or the state itself if the machine stopped. -/
def ran (s : State) (w : Nat) : State :=
  match step (s.withFetchWord 32 w) with
  | .next t => t
  | .fault _ => s
  | .refused _ => s

/-- STATUS after a word. -/
def stat (s : State) (w : Nat) : Word32 := (ran s w).status.word

/-- V-E1 -/
theorem test_nop : stat (fieldBench 23) 0x00000000 = 0x0002 := by decide +kernel
/-- V-M1, V-E3 -/
theorem test_madd : (ran (fieldBench 23) 0x00021B81).f[11] = 6 ∧
    stat (fieldBench 23) 0x00021B01 = 0x0024 ∧ (ran (fieldBench 23) 0x00021B01).fcmd = 0x00021B01 ∧
    (ran (fieldBench 23) 0x00021B01).f[11] = 77 := by decide +kernel
/-- V-M12: the sum is exact beyond W bits. -/
theorem test_madd_wide :
    (ran { fieldBench (2 ^ 256 - 1) with
      f := (fieldBench 0).f.set 12 (2 ^ 256 - 1) |>.set 13 (2 ^ 256 - 2) } 0x000DCB81).f[11] =
      2 ^ 256 - 2 := by decide +kernel
/-- V-M2 -/
theorem test_msub : (ran (fieldBench 23) 0x00023B82).f[11] = 17 := by decide +kernel
/-- V-M3, and V-M14 with its even modulus -/
theorem test_mmul : (ran (fieldBench 23) 0x00021B83).f[11] = 19 ∧
    (ran { fieldBench (2 ^ 255 + 2) with f := (fieldBench 0).f.set 12 (2 ^ 256 - 1) }
      0x000CCB83).f[11] = 25 := by decide +kernel
/-- V-M4, V-M11 -/
theorem test_minv : (ran (fieldBench 23) 0x00002B84).f[11] = 18 ∧
    (ran (fieldBench 15) 0x0000DB84).f[11] = 13 := by decide +kernel
/-- V-M6, V-M7, V-M10 -/
theorem test_minv_faults : stat (fieldBench 23) 0x00007B84 = 0x0044 ∧
    stat (fieldBench 23) 0x00008B84 = 0x0044 ∧ stat (fieldBench 15) 0x0000CB84 = 0x0044 := by
  decide +kernel
/-- V-M5, V-M8 -/
theorem test_mpow : (ran (fieldBench 23) 0x00054B85).f[11] = 8 ∧
    (ran (fieldBench 23) 0x00000B85).f[11] = 1 := by decide +kernel
/-- V-M9 -/
theorem test_fmov : (ran (fieldBench 23) 0x00001B06).f[11] = 20 := by decide +kernel
/-- V-M16: F0 as destination. -/
theorem test_f0_destination : stat (fieldBench 23) 0x00021081 = 0x0002 ∧
    (ran (fieldBench 23) 0x00021081).readF 0 = 0 := by decide +kernel
/-- V-E11, V-E12, V-E13, V-E14 -/
theorem test_fault_order : stat (fieldBench 1) 0x00021B81 = 0x0034 ∧
    stat { pointBench ptInf with consts := { e17 with cp := 1 }, ctrl := { ie := false, lock := false } }
      0x00010210 = 0x0024 ∧
    stat { pointBench ptInf with consts := { e17 with cp := 1 } } 0x00010210 = 0x0034 ∧
    stat (fieldBench 23) 0x00021BC1 = 0x0014 := by decide +kernel
/-- V-P1, V-P5, V-P19 -/
theorem test_padd : (ran (pointBench ptInf) 0x00010210).pt[2] = pt 10 6 ∧
    stat (pointBench ptInf) 0x00077210 = 0x000A ∧
    (ran twoBench 0x00000110).pt[1].inf = true := by decide +kernel
/-- V-P13 to V-P17, the raw and off-curve corners -/
theorem test_padd_corners : stat (pointBench ptInf) 0x00050210 = 0x0044 ∧
    stat (pointBench (pt 5 2)) 0x00060210 = 0x0044 ∧
    (ran (pointBench (pt 5 33)) 0x00060210).pt[2].inf = true ∧
    stat (pointBench (pt 5 18)) 0x00060210 = 0x0044 ∧
    stat (pointBench (pt 5 16)) 0x00060210 = 0x000A := by decide +kernel
/-- V-P2, V-P18, V-P21 -/
theorem test_pdbl : (ran (pointBench ptInf) 0x00000211).pt[2] = pt 6 3 ∧
    (ran twoBench 0x00000111).pt[1].inf = true ∧ stat compositeBench 0x00000111 = 0x0044 := by
  decide +kernel
/-- V-P3, V-P20 -/
theorem test_pneg : (ran (pointBench ptInf) 0x00000212).pt[2] = pt 5 16 ∧
    (ran twoBench 0x00000112).pt[1] = pt 0 0 := by decide +kernel
/-- V-S1, V-S2, V-S7, V-S14 -/
theorem test_pmul : (ran (pointBench ptInf) 0x00010213).pt[2] = pt 16 4 ∧
    (ran (pointBench ptInf) 0x00110213).pt[2] = pt 16 13 ∧
    (ran (pointBench ptInf) 0x00050213).pt[2] = pt 13 7 ∧
    (ran (pointBench (pt 5 2)) 0x00016213).pt[2] = pt 9 15 := by decide +kernel
/-- V-S3, V-S8, V-S9, V-S12, V-S13 -/
theorem test_pmul_corners : stat (pointBench ptInf) 0x00020213 = 0x000A ∧
    (ran (pointBench ptInf) 0x00045213).pt[2] = pt 22 1 ∧
    (ran (pointBench ptInf) 0x00145213).pt[2] = pt 22 16 ∧
    (ran twoBench 0x00010113).pt[1] = pt 0 0 ∧
    (ran twoBench 0x00020113).pt[1].inf = true := by decide +kernel
/-- V-P12, V-E15 -/
theorem test_pset : (ran (pointBench ptInf) 0x00076514).pt[5] = pt 22 1 ∧
    (ran (fieldBench 23) 0x00000214).pt[2] = pt 0 0 := by decide +kernel
/-- L3.4 -/
theorem test_pinf : (ran (pointBench ptInf) 0x00000115).pt[1] = { inf := true, x := 0, y := 0 } ∧
    stat (pointBench ptInf) 0x00000115 = 0x000A := by decide +kernel
/-- V-P8, and L3.4 unlocked -/
theorem test_pldg : (ran (pointBench ptInf) 0x00000316).pt[3] = pt 5 1 ∧
    stat (fieldBench 23) 0x00000016 = 0x0024 := by decide +kernel
/-- V-P11, and x of PT0 -/
theorem test_pgetx : stat (pointBench ptInf) 0x00007C17 = 0x0054 ∧
    (ran (pointBench ptInf) 0x00007C17).f[12] = 77 ∧
    (ran (pointBench ptInf) 0x00000C17).f[12] = 5 := by decide +kernel
/-- V-P10 -/
theorem test_pgety : (ran (pointBench ptInf) 0x00001C18).f[12] = 3 := by decide +kernel
/-- V-P9: a source that holds coordinates under inf = 1 is copied as INF. -/
theorem test_pmov : (ran (pointBench ptInf) 0x00007419).pt[4] = { inf := true, x := 0, y := 0 } ∧
    stat (pointBench ptInf) 0x00007419 = 0x000A := by decide +kernel

/-- The trace of V-S1: the engine's state after the loading and two iterations. -/
theorem test_engine_trace :
    (engineTurn (engineTurn (engineTurn ((pointBench ptInf).acceptCmd 0x00010213)))).ladder =
      some { r := .affine 5 1, q := .affine 3 1, i := 2 } := by decide +kernel

/-! ### The host interface -/

/-- The state after one access of the host. -/
def after (a : Access) (s : State) : State :=
  match hostAccess a s with
  | .next t => t
  | .fault _ => s
  | .refused _ => s

/-- V-H2, V-H3: word 127 holds the low bits. -/
theorem test_window_read : (after (readAt (fieldBench 23) 0x11FC) (fieldBench 23)).busData =
      some 0x00000011 ∧
    (after (readAt (fieldBench 23) 0x11F8) (fieldBench 23)).busData = some 0 ∧
    (after (readAt (pointBench ptInf) 0x2BE0) (pointBench ptInf)).busData = some 0x80000000 := by
  decide +kernel
/-- V-H4 at W = 8. -/
def narrowBench : State := { fieldBench 23 with params := { width := 8, base := 0x40000000 } }
theorem test_window_write_narrows :
    (after (writeAt narrowBench 0x11FC 0x00000123) narrowBench).consts.cp = 0x23 := by decide +kernel
/-- V-H5, and an address outside the map. -/
theorem test_odd_accesses :
    (after (readAt narrowBench 0x0002) narrowBench).busData = some 0 ∧
    (after (readAt narrowBench 0x001C) narrowBench).busData = some 0 ∧
    hostAccess (readAt narrowBench 0x8000) narrowBench = .fault (.outsideRegisterMap 0x40008000) :=
  ⟨by decide +kernel, by decide +kernel, rfl⟩
/-- V-H6, V-H7 -/
theorem test_lock : (after (writeAt (pointBench ptInf) 0x11FC 23) (pointBench ptInf)).status.word =
      0x0200 ∧
    (after (writeAt (pointBench ptInf) 0x11FC 23) (pointBench ptInf)).consts.cp = 17 ∧
    (after (writeAt (pointBench ptInf) 0x1FFC 29) (pointBench ptInf)).mg = 29 := by decide +kernel
/-- V-H8, V-H9, and the step of L3.4 before them. -/
theorem test_fault_blocks_commands :
    (after (writeAt (ran (fieldBench 23) 0x16) 0x0010 0) (ran (fieldBench 23) 0x16)).status.word =
      0x0124 ∧
    ((ran (fieldBench 23) 0x16).dropCmd.statusWrite 0x00000104).status.word = 0x0020 := by
  decide +kernel
/-- V-H11, V-H12 -/
theorem test_ctrl : (after (writeAt (pointBench ptInf) 0x0008 0) (pointBench ptInf)).ctrl.lock = true ∧
    (after (writeAt (pointBench ptInf) 0x0008 4) (pointBench ptInf)).ctrl.word = 0 ∧
    (after (writeAt (pointBench ptInf) 0x0008 4) (pointBench ptInf)).f[1] = 13 := by decide +kernel
/-- V-H10 -/
theorem test_irq : (after (writeAt (ran (fieldBench 23) 0) 0x0008 1) (ran (fieldBench 23) 0)).irq =
    true := by decide +kernel
/-- V-H14 -/
theorem test_ptinf :
    (after (writeAt (pointBench ptInf) 0x0018 1) (pointBench ptInf)).readPt 0 = .inf ∧
    (after (writeAt (pointBench ptInf) 0x0018 1) (pointBench ptInf)).regValue (.ptx 0) = 5 := by
  decide +kernel

/-! ### Witnesses: for every statement with hypotheses, values that meet them -/

/-- An Idle state with no engine under way satisfies the invariant once its registers fit. -/
theorem inv_of_idle {s : State} (hl : s.params.Legal) (hf : ∀ i : FReg, s.readF i < 2 ^ s.params.width)
    (hx : ∀ i : PReg, s.pt[i].x < 2 ^ s.params.width ∧ s.pt[i].y < 2 ^ s.params.width)
    (hc : ∀ c ∈ [s.mg, s.consts.cp, s.consts.ca, s.consts.cb, s.consts.cgx, s.consts.cgy, s.consts.cn,
      s.consts.ch], c < 2 ^ s.params.width)
    (h0 : s.f[0] = 0) (h1 : s.status.busy = false) (h2 : s.status.done = false ∨ s.status.fault = false)
    (h3 : s.status.fault = true → s.status.fcode ≠ .noFault) (h4 : s.ladder = none) : s.Inv := by
  refine ⟨hl, fun r => ?_, h0, ?_, by simp [h1], h3, by simp [h1], fun _ => h4, by simp [h4]⟩
  · cases r with
    | const c => cases c <;> exact hc _ (by simp [State.regValue, CurveParams.get])
    | mg => exact hc _ (by simp [State.regValue])
    | f i => exact hf i
    | ptx i => exact (hx i).1
    | pty i => exact (hx i).2
  · rcases h2 with h | h <;> simp [h]

theorem inv_pointBench : (pointBench ptInf).Inv :=
  inv_of_idle (by decide) (by decide +kernel) (by decide +kernel) (by decide +kernel) rfl rfl
    (by decide) (by decide) rfl
theorem inv_offCurve : (pointBench (pt 5 2)).Inv :=
  inv_of_idle (by decide) (by decide +kernel) (by decide +kernel) (by decide +kernel) rfl rfl
    (by decide) (by decide) rfl
theorem inv_fieldBench : (fieldBench 1).Inv :=
  inv_of_idle (by decide) (by decide +kernel) (by decide +kernel) (by decide +kernel) rfl rfl
    (by decide) (by decide) rfl
theorem inv_compositeBench : compositeBench.Inv :=
  inv_of_idle (by decide) (by decide +kernel) (by decide +kernel) (by decide +kernel) rfl rfl
    (by decide) (by decide) rfl
theorem inv_twoBench : twoBench.Inv :=
  inv_of_idle (by decide) (by decide +kernel) (by decide +kernel) (by decide +kernel) rfl rfl
    (by decide) (by decide) rfl

/-- A locked machine whose three moduli are m: 2 is the least that runs, 1 the greatest that faults. -/
def modBench (m : Nat) : State :=
  { pointBench ptInf with consts := { e17 with cp := m, cn := m }, mg := m }
theorem inv_modBench2 : (modBench 2).Inv :=
  inv_of_idle (by decide) (by decide +kernel) (by decide +kernel) (by decide +kernel) rfl rfl
    (by decide) (by decide) rfl
theorem inv_modBench1 : (modBench 1).Inv :=
  inv_of_idle (by decide) (by decide +kernel) (by decide +kernel) (by decide +kernel) rfl rfl
    (by decide) (by decide) rfl

/-- A busy machine with a given word latched. -/
def busyWith (w : Word32) : State := (pointBench ptInf).acceptCmd w

theorem inv_busyWith (w : Word32) : (busyWith w).Inv := by
  refine ⟨inv_pointBench.legal, inv_pointBench.fits, inv_pointBench.f0, ?_, ?_, ?_, ?_, ?_, ?_⟩ <;>
    simp [busyWith, pointBench, bench, State.reset]

/-- The illegal words of a statement: each is latched by a busy machine and its fields meet P. -/
def Latched (P : Fields → Prop) (ws : List Word32) : Prop :=
  ws.Forall fun w => (busyWith w).status.busy = true ∧ P (Fields.ofWord (busyWith w).latched)

/-- Every modular command runs at its least modulus, at a greater one, and under a lock; and it meets
the premises of both faults. -/
def ModularWitness (i : Modulus → Instr) : Prop :=
  (∀ sel, Ready (i sel) (modBench 2)) ∧ (∀ sel, Ready (i sel) (pointBench ptInf)) ∧
    (∀ sel, sel ≠ .g → lockNeeded (i sel) = true ∧ (fieldBench 1).ctrl.lock = false) ∧
    ∀ sel, modulusNeeded (i sel) = some sel ∧
      (lockNeeded (i sel) = true → (modBench 1).ctrl.lock = true) ∧ (modBench 1).modulus sel < 2

/-- The modulus g needs no lock. -/
theorem ready_g_unlocked : Ready (.madd .g 11 1 2) (fieldBench 2) :=
  ⟨by decide, by rintro _ ⟨⟩; decide⟩

theorem modularWitness (i : Modulus → Instr) (hm : ∀ sel, modulusNeeded (i sel) = some sel)
    (hl : ∀ sel, lockNeeded (i sel) = (sel != .g)) : ModularWitness i := by
  refine ⟨fun sel => ⟨fun _ => rfl, fun q h => ?_⟩, fun sel => ⟨fun _ => rfl, fun q h => ?_⟩,
    fun sel h => ⟨?_, rfl⟩, fun sel => ⟨hm sel, fun _ => rfl, ?_⟩⟩
  · cases q <;> decide
  · cases q <;> decide
  · simp [hl, h]
  · cases sel <;> decide

theorem witness_StepKeepsInvariant : (busyWith 0x00010213).Inv ∧ ∃ t, step (busyWith 0x00010213) = .next t :=
  ⟨inv_busyWith _, _, rfl⟩

theorem witness_StepRunsDecodedCommand :
    (busyWith 0x00010210).status.busy = true ∧ (busyWith 0x00010210).turns = [] ∧
    decode (busyWith 0x00010210).latched = .ok (.padd 2 0 1) ∧
    ({ busyWith 0x00010210 with turns := [.sequencer, .engine] } : State).turns =
      .sequencer :: [.engine] ∧
    decode (busyWith 0x00000007).latched = .error .reservedOpcode ∧
    (busyWith 0x00000007).turns = [] := by
  refine ⟨rfl, rfl, by decide, rfl, by decide, rfl⟩

theorem witness_StepTakesTheOldestTurn :
    ({ busyWith 0 with turns := [.engine, .reset none] } : State).turns = .engine :: [.reset none] ∧
    (pointBench ptInf).turns = [] ∧ (pointBench ptInf).status.busy = false ∧
    ({ State.reset with turns := [.host (readAt State.reset 0x0C)] } : State).turns =
      .host (readAt State.reset 0x0C) :: [] := ⟨rfl, rfl, rfl, rfl⟩

theorem witness_DecodedWordIsItsEncoding : decode 0x00180213 = .ok (.pmul true 2 0 8) := by decide

theorem witness_DecodedWordMatchesItsRowAlone : decode 0x00180213 = .ok (.pmul true 2 0 8) ∧
    0x00180213#32 &&& (Instr.pmul false 0 0 0).row.mask = (Instr.pmul false 0 0 0).row.pattern := by
  decide

theorem witness_IllegalWordFaultsAndWritesNothing :
    Latched (fun x => x.legal = false) [0x00021BC1, 0x00000007, 0x00200000, 0xFFFFFFFF] := by
  unfold Latched; decide +kernel

theorem witness_NopCompletes : Latched (fun x => x.opc = 0x00 ∧
      (x.msel ≠ 0 ∨ x.d ≠ 0 ∨ x.a ≠ 0 ∨ x.b ≠ 0 ∨ x.neg ≠ 0 ∨ x.rsv ≠ 0))
    [0x00000040, 0x00000100, 0x00001000, 0x00010000, 0x00100000, 0x80000000] := by
  unfold Latched; decide +kernel

theorem witness_MaddAddsModulo : (modBench 2).Inv ∧ (pointBench ptInf).Inv ∧ (modBench 1).Inv ∧
    (fieldBench 1).Inv ∧ ModularWitness (fun sel => .madd sel 11 1 2) ∧
    Latched (fun x => x.opc = 0x01 ∧ (x.msel = 3 ∨ x.neg ≠ 0 ∨ x.rsv ≠ 0))
      [0x00021BC1, 0x00121B81, 0x00221B81] :=
  ⟨inv_modBench2, inv_pointBench, inv_modBench1, inv_fieldBench,
    modularWitness _ (fun _ => rfl) (fun _ => rfl), by unfold Latched; decide +kernel⟩

theorem witness_MsubSubtractsModulo : (pointBench ptInf).Inv ∧
    ModularWitness (fun sel => .msub sel 11 1 1) ∧
    (pointBench ptInf).readF 1 ≤ (pointBench ptInf).readF 1 ∧
    Latched (fun x => x.opc = 0x02 ∧ (x.msel = 3 ∨ x.neg ≠ 0 ∨ x.rsv ≠ 0))
      [0x000000C2, 0x00100002, 0x00200002] :=
  ⟨inv_pointBench, modularWitness _ (fun _ => rfl) (fun _ => rfl), le_refl _,
    by unfold Latched; decide +kernel⟩

theorem witness_MmulMultipliesModulo : (pointBench ptInf).Inv ∧
    ModularWitness (fun sel => .mmul sel 11 1 2) ∧
    Latched (fun x => x.opc = 0x03 ∧ (x.msel = 3 ∨ x.neg ≠ 0 ∨ x.rsv ≠ 0))
      [0x000000C3, 0x00100003, 0x00200003] :=
  ⟨inv_pointBench, modularWitness _ (fun _ => rfl) (fun _ => rfl), by unfold Latched; decide +kernel⟩

/-- 7 is invertible mod 15, 6 is not. -/
theorem witness_MinvInvertsOrFaults : compositeBench.Inv ∧ Ready (.minv .g 11 13) compositeBench ∧
    Nat.gcd (compositeBench.readF 13 % compositeBench.modulus .g) (compositeBench.modulus .g) = 1 ∧
    Ready (.minv .g 11 12) compositeBench ∧
    Nat.gcd (compositeBench.readF 12 % compositeBench.modulus .g) (compositeBench.modulus .g) ≠ 1 ∧
    ModularWitness (fun sel => .minv sel 11 1) ∧
    Latched (fun x => x.opc = 0x04 ∧ (x.msel = 3 ∨ x.b ≠ 0 ∨ x.neg ≠ 0 ∨ x.rsv ≠ 0))
      [0x000000C4, 0x00010004, 0x00100004, 0x00200004] :=
  ⟨inv_compositeBench, ⟨fun _ => rfl, by rintro _ ⟨⟩; decide⟩, by decide +kernel,
    ⟨fun _ => rfl, by rintro _ ⟨⟩; decide⟩, by decide +kernel,
    modularWitness _ (fun _ => rfl) (fun _ => rfl), by unfold Latched; decide +kernel⟩

theorem witness_MpowRaisesToThePower : (pointBench ptInf).Inv ∧
    ModularWitness (fun sel => .mpow sel 11 1 2) ∧
    Latched (fun x => x.opc = 0x05 ∧ (x.msel = 3 ∨ x.neg ≠ 0 ∨ x.rsv ≠ 0))
      [0x000000C5, 0x00100005, 0x00200005] :=
  ⟨inv_pointBench, modularWitness _ (fun _ => rfl) (fun _ => rfl), by unfold Latched; decide +kernel⟩

theorem witness_FmovCopiesRaw : (fieldBench 1).Inv ∧
    Latched (fun x => x.opc = 0x06 ∧ (x.msel ≠ 0 ∨ x.b ≠ 0 ∨ x.neg ≠ 0 ∨ x.rsv ≠ 0))
      [0x00001B86, 0x00010006, 0x00100006, 0x00200006] :=
  ⟨inv_fieldBench, by unfold Latched; decide +kernel⟩

theorem witness_MpowExponentsCommute : (fieldBench 1).Inv ∧ ∃ s t u : State, s.Inv ∧
    Ready (.mpow .g 11 4 5) s ∧ exec (.mpow .g 11 4 5) s = .next t ∧
    exec (.mpow .g 10 4 3) t = .next u :=
  ⟨inv_fieldBench, pointBench ptInf, _, _, inv_pointBench,
    ⟨fun _ => rfl, by rintro _ ⟨⟩; decide⟩, rfl, rfl⟩

/-- A point command and the premises of its two faults. -/
def PointWitness (i : Instr) : Prop :=
  Ready i (pointBench ptInf) ∧ (lockNeeded i = true ∧ (fieldBench 1).ctrl.lock = false) ∧
    modulusNeeded i = some .p ∧ (lockNeeded i = true → (modBench 1).ctrl.lock = true) ∧
    (modBench 1).modulus .p < 2

theorem pointWitness (i : Instr) (hl : lockNeeded i = true) (hm : modulusNeeded i = some .p) :
    PointWitness i :=
  ⟨⟨fun _ => rfl, fun q h => by cases q <;> decide⟩, ⟨hl, rfl⟩, hm, fun _ => rfl, by decide⟩

/-- Each clause: INF on either side, opposite points, a doubling that inverts and one that does not,
two points with distinct x, and two whose x differ by CP. -/
theorem witness_PaddAddsPoints : PointWitness (.padd 2 0 1) ∧ (pointBench ptInf).Inv ∧
    (pointBench ptInf).readPt 7 = .inf ∧ (pointBench ptInf).readPt 0 = .affine 5 1 ∧
    (pointBench ptInf).readPt 1 = .affine 6 3 ∧ (pointBench ptInf).readPt 5 = .affine 22 1 ∧
    (twoBench.Inv ∧ Ready (.padd 1 0 0) twoBench ∧ twoBench.readPt 0 = .affine 0 0 ∧
      (0 + 0) % twoBench.consts.cp = 0) ∧
    ((1 + 1) % 17 ≠ 0 ∧ Int.gcd (2 * 1) 17 = 1) ∧
    (compositeBench.Inv ∧ Ready (.padd 1 0 0) compositeBench ∧
      compositeBench.readPt 0 = .affine 1 3 ∧ (3 + 3) % compositeBench.consts.cp ≠ 0 ∧
      Int.gcd (2 * 3) compositeBench.consts.cp ≠ 1) ∧
    (Int.gcd (6 - 5) 17 = 1 ∧ Int.gcd (22 - 5) 17 ≠ 1) ∧
    Latched (fun x => x.opc = 0x10 ∧
        (x.msel ≠ 0 ∨ 8 ≤ x.d.toNat ∨ 8 ≤ x.a.toNat ∨ 8 ≤ x.b.toNat ∨ x.neg ≠ 0 ∨ x.rsv ≠ 0))
      [0x00000050, 0x00000810, 0x00008010, 0x00080010, 0x00100010, 0x00200010] :=
  ⟨pointWitness _ rfl rfl, inv_pointBench, rfl, rfl, rfl, rfl,
    ⟨inv_twoBench, ⟨fun _ => rfl, by rintro _ ⟨⟩; decide⟩, rfl, by decide⟩, by decide,
    ⟨inv_compositeBench, ⟨fun _ => rfl, by rintro _ ⟨⟩; decide⟩, rfl, by decide, by decide⟩, by decide,
    by unfold Latched; decide +kernel⟩

theorem witness_PdblDoublesPoint : PointWitness (.pdbl 2 0) ∧ (pointBench ptInf).Inv ∧
    (pointBench ptInf).readPt 7 = .inf ∧
    ((pointBench ptInf).readPt 0 = .affine 5 1 ∧ 2 * 1 % 17 ≠ 0 ∧ Int.gcd (2 * 1) 17 = 1) ∧
    (Ready (.pdbl 1 0) twoBench ∧ twoBench.readPt 0 = .affine 0 0 ∧ 2 * 0 % 17 = 0) ∧
    (Ready (.pdbl 1 0) compositeBench ∧ compositeBench.readPt 0 = .affine 1 3 ∧
      2 * 3 % compositeBench.consts.cp ≠ 0 ∧ Int.gcd (2 * 3) compositeBench.consts.cp ≠ 1) ∧
    Latched (fun x => x.opc = 0x11 ∧
        (x.msel ≠ 0 ∨ 8 ≤ x.d.toNat ∨ 8 ≤ x.a.toNat ∨ x.b ≠ 0 ∨ x.neg ≠ 0 ∨ x.rsv ≠ 0))
      [0x00000051, 0x00000811, 0x00008011, 0x00010011, 0x00100011, 0x00200011] :=
  ⟨pointWitness _ rfl rfl, inv_pointBench, rfl, ⟨rfl, by decide, by decide⟩,
    ⟨⟨fun _ => rfl, by rintro _ ⟨⟩; decide⟩, rfl, by decide⟩,
    ⟨⟨fun _ => rfl, by rintro _ ⟨⟩; decide⟩, rfl, by decide, by decide⟩, by unfold Latched; decide +kernel⟩

theorem witness_PnegNegatesPoint : PointWitness (.pneg 2 0) ∧ (pointBench ptInf).Inv ∧
    (pointBench ptInf).readPt 7 = .inf ∧ (pointBench ptInf).readPt 0 = .affine 5 1 ∧
    Latched (fun x => x.opc = 0x12 ∧
        (x.msel ≠ 0 ∨ 8 ≤ x.d.toNat ∨ 8 ≤ x.a.toNat ∨ x.b ≠ 0 ∨ x.neg ≠ 0 ∨ x.rsv ≠ 0))
      [0x00000052, 0x00000812, 0x00008012, 0x00010012, 0x00100012, 0x00200012] :=
  ⟨pointWitness _ rfl rfl, inv_pointBench, rfl, rfl, by unfold Latched; decide +kernel⟩

/-- A zero scalar, INF, a ladder that ends and one that faults in its first doubling. -/
theorem witness_PmulRunsTheLadder : (∀ neg, PointWitness (.pmul neg 2 0 1)) ∧
    (pointBench ptInf).Inv ∧ (pointBench ptInf).readF 2 = 0 ∧ (pointBench ptInf).readPt 7 = .inf ∧
    ((pointBench ptInf).readF 1 ≠ 0 ∧ (pointBench ptInf).readPt 0 = .affine 5 1 ∧
      ladderLoop 17 2 13 (.affine 5 1) = .ok (.affine 16 4, .affine 10 11)) ∧
    (Ready (.pmul false 1 0 1) compositeBench ∧ compositeBench.readF 1 ≠ 0 ∧
      compositeBench.readPt 0 = .affine 1 3 ∧
      ladderLoop 15 0 1 (.affine 1 3) = .error .invZero) ∧
    Latched (fun x => x.opc = 0x13 ∧ (x.msel ≠ 0 ∨ 8 ≤ x.d.toNat ∨ 8 ≤ x.a.toNat ∨ x.rsv ≠ 0))
      [0x00000053, 0x00000813, 0x00008013, 0x00200013] :=
  ⟨fun _ => pointWitness _ rfl rfl, inv_pointBench, rfl, rfl,
    ⟨by decide, rfl, by decide +kernel⟩,
    ⟨⟨fun _ => rfl, by rintro _ ⟨⟩; decide⟩, by decide, rfl, by decide +kernel⟩,
    by unfold Latched; decide +kernel⟩

theorem witness_PmulByOneAndOfOrderTwo :
    ((pointBench ptInf).Inv ∧ PointWitness (.pmul true 2 5 4) ∧
      (pointBench ptInf).readPt 5 = .affine 22 1 ∧ (pointBench ptInf).readF 4 = 1 ∧
      Int.gcd (2 * 1) (pointBench ptInf).consts.cp = 1) ∧
    (twoBench.Inv ∧ Ready (.pmul false 1 0 1) twoBench ∧ twoBench.readPt 0 = .affine 0 0 ∧
      0 % twoBench.consts.cp = 0 ∧ twoBench.readF 1 % 2 = 1 ∧ twoBench.readF 2 % 2 = 0 ∧
      twoBench.readF 4 % 2 = 0) :=
  ⟨⟨inv_pointBench, pointWitness _ rfl rfl, rfl, rfl, by decide⟩,
    ⟨inv_twoBench, ⟨fun _ => rfl, by rintro _ ⟨⟩; decide⟩, rfl, rfl, rfl, rfl, rfl⟩⟩

theorem witness_PsetBuildsRawPoint : (fieldBench 1).Inv ∧
    Latched (fun x => x.opc = 0x14 ∧ (x.msel ≠ 0 ∨ 8 ≤ x.d.toNat ∨ x.neg ≠ 0 ∨ x.rsv ≠ 0))
      [0x00000054, 0x00000814, 0x00100014, 0x00200014] :=
  ⟨inv_fieldBench, by unfold Latched; decide +kernel⟩

theorem witness_PinfLoadsInfinity : Latched (fun x => x.opc = 0x15 ∧
      (x.msel ≠ 0 ∨ 8 ≤ x.d.toNat ∨ x.a ≠ 0 ∨ x.b ≠ 0 ∨ x.neg ≠ 0 ∨ x.rsv ≠ 0))
    [0x00000055, 0x00000815, 0x00001015, 0x00010015, 0x00100015, 0x00200015] := by
  unfold Latched; decide +kernel

theorem witness_PldgLoadsGenerator : (pointBench ptInf).Inv ∧ (pointBench ptInf).ctrl.lock = true ∧
    (lockNeeded (.pldg 3) = true ∧ (fieldBench 1).Inv ∧ (fieldBench 1).ctrl.lock = false) ∧
    Latched (fun x => x.opc = 0x16 ∧
        (x.msel ≠ 0 ∨ 8 ≤ x.d.toNat ∨ x.a ≠ 0 ∨ x.b ≠ 0 ∨ x.neg ≠ 0 ∨ x.rsv ≠ 0))
      [0x00000056, 0x00000816, 0x00001016, 0x00010016, 0x00100016, 0x00200016] :=
  ⟨inv_pointBench, rfl, ⟨rfl, inv_fieldBench, rfl⟩, by unfold Latched; decide +kernel⟩

theorem witness_PgetxReadsXOrFaults : (pointBench ptInf).Inv ∧
    (pointBench ptInf).readPt 0 = .affine 5 1 ∧ (pointBench ptInf).readPt 7 = .inf ∧
    Latched (fun x => x.opc = 0x17 ∧
        (x.msel ≠ 0 ∨ 8 ≤ x.a.toNat ∨ x.b ≠ 0 ∨ x.neg ≠ 0 ∨ x.rsv ≠ 0))
      [0x00000057, 0x00008017, 0x00010017, 0x00100017, 0x00200017] :=
  ⟨inv_pointBench, rfl, rfl, by unfold Latched; decide +kernel⟩

theorem witness_PgetyReadsYOrFaults : (pointBench ptInf).Inv ∧
    (pointBench ptInf).readPt 0 = .affine 5 1 ∧ (pointBench ptInf).readPt 7 = .inf ∧
    Latched (fun x => x.opc = 0x18 ∧
        (x.msel ≠ 0 ∨ 8 ≤ x.a.toNat ∨ x.b ≠ 0 ∨ x.neg ≠ 0 ∨ x.rsv ≠ 0))
      [0x00000058, 0x00008018, 0x00010018, 0x00100018, 0x00200018] :=
  ⟨inv_pointBench, rfl, rfl, by unfold Latched; decide +kernel⟩

theorem witness_PmovCopiesPointValue : (pointBench ptInf).Inv ∧
    (pointBench ptInf).pt[(7 : PReg)].inf = true ∧ (pointBench ptInf).pt[(0 : PReg)].inf = false ∧
    Latched (fun x => x.opc = 0x19 ∧
        (x.msel ≠ 0 ∨ 8 ≤ x.d.toNat ∨ 8 ≤ x.a.toNat ∨ x.b ≠ 0 ∨ x.neg ≠ 0 ∨ x.rsv ≠ 0))
      [0x00000059, 0x00000819, 0x00008019, 0x00010019, 0x00100019, 0x00200019] :=
  ⟨inv_pointBench, rfl, rfl, by unfold Latched; decide +kernel⟩

theorem witness_FaultPriorityIsCfgThenMod : PointWitness (.padd 2 0 1) ∧
    Ready (.pgetx 12 7) (pointBench ptInf) ∧ ∃ t, exec (.pgetx 12 7) (pointBench ptInf) = .next t ∧
      EndedFault (pointBench ptInf) t .infCoord ∧ (pointBench ptInf).status.fault = false :=
  ⟨pointWitness _ rfl rfl, ⟨by decide, by rintro _ ⟨⟩⟩, _, rfl,
    ⟨rfl, rfl, rfl, rfl, rfl, rfl, rfl, sameControl_takeFault _ _⟩, rfl⟩

theorem witness_UnlockedCommandsIgnoreLock : lockNeeded (.mpow .g 11 4 5) = false ∧
    lockNeeded (.pgety 12 1) = false ∧ lockNeeded .nop = false := by decide

theorem witness_FieldRegisterZeroIsHardwired :
    (∃ t, exec (.madd .g 0 1 2) (fieldBench 23) = .next t ∧ destOf (.madd .g 0 1 2) = .f 0) ∧
    (fieldBench 23).status.busy = false ∧ 0 < 128 ∧ 127 < 128 :=
  ⟨⟨_, rfl, rfl⟩, rfl, by decide, by decide⟩

/-- 17 is prime, and (5, 1) and (6, 3) are points of E17. -/
theorem prime17 : Nat.Prime 17 := by decide

theorem nonsingular_of_e17 {x y : ZMod 17} (h : y ^ 2 = x ^ 3 + 2 * x + 2) (hy : 2 * y ≠ 0) :
    (curve 17 2 2).Nonsingular x y := by
  rw [WeierstrassCurve.Affine.nonsingular_iff, WeierstrassCurve.Affine.equation_iff]
  refine ⟨by simpa [curve] using h, .inr ?_⟩
  intro e
  apply hy
  simp [curve] at e
  linear_combination e

/-- The point (5, 1). -/
def pointG : (curve 17 2 2).Point := .some 5 1 (nonsingular_of_e17 (by decide) (by decide))

/-- The point (6, 3). -/
def point2G : (curve 17 2 2).Point := .some 6 3 (nonsingular_of_e17 (by decide) (by decide))

theorem witness_PointCommandsAreTheGroupLaw : Fact (pointBench ptInf).consts.cp.Prime ∧
    (pointBench ptInf).Inv ∧ (pointBench ptInf).ctrl.lock = true ∧
    (pointBench ptInf).readPt 0 = pointOf pointG ∧ (pointBench ptInf).readPt 1 = pointOf point2G ∧
    (pointBench ptInf).readPt 7 = pointOf (0 : (curve 17 2 2).Point) :=
  ⟨⟨prime17⟩, inv_pointBench, rfl, by decide, by decide, rfl⟩

theorem witness_PmulIsScalarMultiplication : Fact (pointBench ptInf).consts.cp.Prime ∧
    (pointBench ptInf).Inv ∧ (pointBench ptInf).ctrl.lock = true ∧
    (pointBench ptInf).readPt 0 = pointOf pointG := ⟨⟨prime17⟩, inv_pointBench, rfl, by decide⟩

theorem witness_EcdhAgreement : Fact (pointBench ptInf).consts.cp.Prime ∧ ∃ t u, (pointBench ptInf).Inv ∧
    (pointBench ptInf).ctrl.lock = true ∧ (pointBench ptInf).readPt 0 = pointOf pointG ∧
    exec (.pmul false 1 0 8) (pointBench ptInf) = .next t ∧ exec (.pmul false 2 0 1) t = .next u := by
  obtain ⟨t, h⟩ := exec_answers (.pmul false 1 0 8) (pointBench ptInf)
  obtain ⟨u, h2⟩ := exec_answers (.pmul false 2 0 1) t
  exact ⟨⟨prime17⟩, t, u, inv_pointBench, rfl, by decide, h, h2⟩

/-- The engine before its loading, under way, and about to fault. -/
theorem witness_EngineProgressIsHidden : (busyWith 0x00010213).Inv ∧
    (busyWith 0x00010213).status.busy = true ∧
    (∃ l, ({ busyWith 0x00010213 with ladder := some l } : State).Inv ∧ l.i = 1) := by
  refine ⟨inv_busyWith _, rfl, ⟨{ r := .affine 5 1, q := .affine 6 3, i := 1 }, ?_, rfl⟩⟩
  have h := inv_busyWith 0x00010213
  refine ⟨h.legal, h.fits, h.f0, h.oneEnd, h.busyClean, h.faultCode, h.latchedIsCmd,
    (fun e => by cases e), ?_⟩
  rintro _ ⟨⟩
  exact ⟨false, 2, 0, 1, by decide, rfl, by decide, by decide +kernel, by decide +kernel,
    by decide +kernel, by decide +kernel⟩

theorem witness_EveryAcceptedCommandEnds : (busyWith 0x00010213).Inv ∧
    (busyWith 0x00010213).status.busy = true ∧ (busyWith 0x00010213).turns = [] :=
  ⟨inv_busyWith _, rfl, rfl⟩

/-- A write of CP while unlocked and Idle. -/
theorem witness_CurveConstantsChangeOnlyUnlockedAndIdle : ∃ s t : State, step s = .next t ∧
    t.consts ≠ s.consts :=
  ⟨{ State.reset with turns := [.host (writeAt State.reset 0x11FC 17)] }, _, rfl, by decide +kernel⟩

/-- A soft reset, and a hardware reset. -/
theorem witness_LockHoldsUntilReset : ∃ s t u : State,
    s.ctrl.lock = true ∧
    step { s with turns := [.host (writeAt s 0x0008 4)] } = .next t ∧ t.ctrl.lock = false ∧
    step { s with turns := [.reset none] } = .next u ∧ u.ctrl.lock = false :=
  ⟨pointBench ptInf, _, _, rfl, rfl, rfl, rfl, rfl⟩

theorem witness_IdentityAndParametersAreConstant : (∃ t, step (pointBench ptInf) = .next t) ∧
    (pointBench ptInf).params.Legal ∧
    (⟨2, 0⟩ : Params).Legal ∧ (⟨4096, 0⟩ : Params).Legal := ⟨⟨_, rfl⟩, by decide, by decide, by decide⟩

/-- An Idle, a Busy and a faulted state. -/
theorem witness_CmdWriteAcceptsExactlyWhenIdleAndUnfaulted :
    ((pointBench ptInf).status.busy = false ∧ (pointBench ptInf).status.fault = false) ∧
    (busyWith 0).status.busy = true ∧ (ran (fieldBench 23) 0x16).status.fault = true := by
  decide +kernel

theorem witness_CtrlWriteSetsEnableAndLock : (0x00000003 : Word32).getLsbD 2 = false ∧
    (0x00000003 : Word32).getLsbD 0 = true ∧ (ran (fieldBench 23) 0).status.done = true ∧
    (ran (fieldBench 23) 0x16).status.fault = true ∧
    ∃ t, hostAccess (writeAt (ran (fieldBench 23) 0) 0x0008 3) (ran (fieldBench 23) 0) = .next t :=
  ⟨by decide, by decide, by decide +kernel, by decide +kernel, _, rfl⟩

theorem witness_InterruptLineFollowsCompletion :
    (∃ t, exec (.pinf 1) (pointBench ptInf) = .next t) ∧
    (∃ t, hostAccess (writeAt (pointBench ptInf) 0x000C 0x00000006) (pointBench ptInf) = .next t) ∧
    (pointBench ptInf).status.busy = false ∧ (pointBench ptInf).status.fault = false ∧
    ∃ t, hostAccess (writeAt (pointBench ptInf) 0x0010 0) (pointBench ptInf) = .next t :=
  ⟨⟨_, rfl⟩, ⟨_, rfl⟩, rfl, rfl, ⟨_, rfl⟩⟩

theorem witness_FaultReturnReopensTheBlock :
    ((pointBench ptInf).takeFault .infCoord).Inv ∧
    ((pointBench ptInf).takeFault .infCoord).status.fault = true :=
  ⟨inv_of_idle (by decide) (by decide +kernel) (by decide +kernel) (by decide +kernel) rfl rfl
    (by decide) (by decide) rfl, rfl⟩

/-- The first and the last word of a window; while Busy a curve constant. -/
theorem witness_WindowWordsReadTheRegister : 0 < 128 ∧ 127 < 128 ∧ (busyWith 0).status.busy = true ∧
    (WinReg.const .cp).usedByCommands = false ∧ WinReg.mg.usedByCommands = false := by decide

/-- MG under LOCK = 1, every register under LOCK = 0. -/
theorem witness_WindowWritesChangeOnlyTheirBits : (pointBench ptInf).Inv ∧ 0 < 128 ∧ 127 < 128 ∧
    (pointBench ptInf).status.busy = false ∧ WinReg.mg.lockable = false ∧
    (fieldBench 1).Inv ∧ (fieldBench 1).status.busy = false ∧ (fieldBench 1).ctrl.lock = false ∧
    WinReg.const .cp ≠ .f 0 ∧ WinReg.f 15 ≠ .f 0 :=
  ⟨inv_pointBench, by decide, by decide, rfl, rfl, inv_fieldBench, rfl, rfl, by decide, by decide⟩

theorem witness_WholeWindowWriteLoadsTheValue : (fieldBench 1).Inv ∧
    (fieldBench 1).status.busy = false ∧ (fieldBench 1).ctrl.lock = false ∧
    WinReg.const .cp ≠ .f 0 ∧ (pointBench ptInf).ctrl.lock = true ∧ (WinReg.ptx 7).lockable = false :=
  ⟨inv_fieldBench, rfl, rfl, by decide, rfl, rfl⟩

theorem witness_ForbiddenDataWritesAreDropped : 127 < 128 ∧ (busyWith 0).status.busy = true ∧
    (pointBench ptInf).ctrl.lock = true ∧ WinReg.const .ch = .const .ch := by decide

/-- The ends of each reserved range, a misaligned offset, a partial access. -/
theorem witness_ReservedAndPartialAccessesDoNothing :
    (0x7FFF < 0x8000 ∧ 0x7FFF % 4 ≠ 0) ∧ ((7 : BitVec 4) ≠ 0xF) ∧
    (0x001C ≤ 0x001C ∧ 0x001C < 0x1000) ∧ (0x001C ≤ 0x0FFC ∧ 0x0FFC < 0x1000) ∧
    (0x6000 ≤ 0x6000 ∧ 0x6000 ≤ 0x7FFC) := by decide

theorem witness_ReadsHaveNoSideEffects : (readAt (busyWith 0) 0x2000).kind = .read ∧
    ∃ t, hostAccess (readAt (busyWith 0) 0x2000) (busyWith 0) = .next t := ⟨rfl, _, rfl⟩

/-- A command that faults, a soft reset that forgets the fault, and a hardware reset. -/
theorem witness_FaultRecordIsOfTheLastFault : (busyWith 0x00007C17).Inv ∧ ∃ t u w,
    step (busyWith 0x00007C17) = .next t ∧ t.fcmd ≠ (busyWith 0x00007C17).fcmd ∧
    t.status.fcode ≠ (busyWith 0x00007C17).status.fcode ∧
    step { t with turns := [.host (writeAt t 0x0008 4)] } = .next u ∧ u.fcmd ≠ t.fcmd ∧
    step { t with turns := [.reset none] } = .next w ∧ w.status.fcode ≠ t.status.fcode :=
  ⟨inv_busyWith _, _, _, _, rfl, by decide +kernel, by decide +kernel, rfl, by decide +kernel, rfl,
    by decide +kernel⟩

theorem witness_PtinfHoldsTheInfBits : (pointBench ptInf).status.busy = false := rfl

/-- SRST alone and with IE and LOCK written 1; Idle, Busy with a command that has a destination, the
other registers being no destination, and Busy with NOP. -/
theorem witness_SoftResetKeepsDataButTheDestination : (0x00000004 : Word32).getLsbD 2 = true ∧
    (0x00000007 : Word32).getLsbD 2 = true ∧
    (pointBench ptInf).status.busy = false ∧ (busyWith 0x00021B81).status.busy = true ∧
    decode (busyWith 0x00021B81).latched = .ok (.madd .g 11 1 2) ∧
    destOf (.madd .g 11 1 2) ≠ .f 12 ∧ destOf (.madd .g 11 1 2) ≠ .pt 3 ∧
    (busyWith 0).status.busy = true ∧ decode (busyWith 0).latched = .ok .nop ∧
    destOf .nop ≠ .f 11 ∧ destOf .nop ≠ .pt 3 := by decide

theorem witness_HardwareResetOverridesEverything :
    ({ busyWith 0x00010213 with
        turns := [.reset (some (writeAt (busyWith 0) 0x0010 0)), .sequencer] } : State).turns =
      .reset (some (writeAt (busyWith 0) 0x0010 0)) :: [.sequencer] := rfl

end Sys2Proof.Tests
end

section
/-! SUPPORT. The invariant in two parts, the data registers' and the control state's; what each
operation does to either; and the statement that every step keeps it. -/

namespace Sys2Proof.Machine

/-! ### Registers that fit -/

/-- The part of the invariant that speaks of the parameters and the data registers alone
(10_state.md R20, R21). -/
structure State.DataInv (s : State) : Prop where
  legal : s.params.Legal
  fits : ∀ r : WinReg, s.regValue r < 2 ^ s.params.width
  f0 : s.f[0] = 0

theorem State.Inv.dataInv {s : State} (h : s.Inv) : s.DataInv := ⟨h.legal, h.fits, h.f0⟩

/-- States with the same parameters and data registers satisfy it together. -/
theorem State.DataInv.congr {s t : State} (h : s.DataInv) (hparams : t.params = s.params)
    (hf : t.f = s.f) (hpt : t.pt = s.pt) (hconsts : t.consts = s.consts) (hmg : t.mg = s.mg) :
    t.DataInv := by
  refine ⟨hparams ▸ h.legal, fun r => ?_, by simpa [hf] using h.f0⟩
  have hr : t.regValue r = s.regValue r := by
    cases r <;> simp [State.regValue, State.readF, hf, hpt, hconsts, hmg]
  rw [hr, hparams]
  exact h.fits r

/-- A state with an Idle block, at most one of DONE and FAULT, a real code with FAULT, and no state
of the engine is good once its data registers are. -/
theorem State.DataInv.inv_of_idle {s : State} (h : s.DataInv) (hbusy : s.status.busy = false)
    (hone : ¬ (s.status.done = true ∧ s.status.fault = true))
    (hcode : s.status.fault = true → s.status.fcode ≠ .noFault) (hladder : s.ladder = none) :
    s.Inv where
  legal := h.legal
  fits := h.fits
  f0 := h.f0
  oneEnd := hone
  busyClean hb := by simp [hbusy] at hb
  faultCode := hcode
  latchedIsCmd hb := by simp [hbusy] at hb
  idleLadder _ := hladder
  ladderOk l hl := by simp [hladder] at hl

/-- The storage behind F0 is never written (10_state.md R21). -/
theorem putReg_f0 (s : State) (v : Nat) (r : WinReg) : (s.putReg v r).f[0] = s.f[0] := by
  cases r with
  | f i =>
    simp only [State.putReg, writeF_f]
    split
    · rfl
    · rename_i hi
      have : (i : Nat) ≠ 0 := fun e => hi (Fin.ext e)
      simp [this]
  | _ => rfl

theorem State.DataInv.putReg {s : State} (h : s.DataInv) (v : Nat) (r : WinReg) :
    (s.putReg v r).DataInv := by
  have hparams : (s.putReg v r).params = s.params := (putReg_rest s v r).1.params
  refine ⟨hparams ▸ h.legal, fun r' => ?_, (putReg_f0 s v r).trans h.f0⟩
  rw [hparams, regValue_putReg]
  split
  · split
    · exact Nat.two_pow_pos _
    · exact narrow_lt s v
  · exact h.fits r'

/-- A command's write to F is the host's write of that register. -/
theorem State.DataInv.writeF {s : State} (h : s.DataInv) (d : FReg) (v : Nat) :
    (s.writeF d v).DataInv := h.putReg v (.f d)

/-- New contents of the PT registers keep the data part when every coordinate fits. -/
theorem State.DataInv.withPt {s : State} (h : s.DataInv) {pt' : Vector PtReg 8}
    (hpt : ∀ i : PReg, pt'[i].x < 2 ^ s.params.width ∧ pt'[i].y < 2 ^ s.params.width) :
    ({ s with pt := pt' } : State).DataInv := by
  refine ⟨h.legal, fun r => ?_, h.f0⟩
  cases r with
  | const c => exact h.fits (.const c)
  | mg => exact h.fits .mg
  | f i => exact h.fits (.f i)
  | ptx i => exact (hpt i).1
  | pty i => exact (hpt i).2

/-- One PT register replaced by contents that fit. -/
theorem State.DataInv.setPt {s : State} (h : s.DataInv) (d : PReg) {q : PtReg}
    (hx : q.x < 2 ^ s.params.width) (hy : q.y < 2 ^ s.params.width) :
    ({ s with pt := s.pt.set d q } : State).DataInv := by
  refine h.withPt fun i => ?_
  by_cases hi : i = d
  · subst hi; simp [hx, hy]
  · have : (d : Nat) ≠ i := fun e => hi (Fin.ext e.symm)
    simpa [this] using ⟨h.fits (.ptx i), h.fits (.pty i)⟩

theorem State.DataInv.writePt {s : State} (h : s.DataInv) (d : PReg) (P : Point) :
    (s.writePt d P).DataInv := by
  cases P with
  | inf => exact h.setPt d (Nat.two_pow_pos _) (Nat.two_pow_pos _)
  | affine x y => exact h.setPt d (narrow_lt s x) (narrow_lt s y)

/-- A free value is cut to the register. -/
theorem freeValue_lt (s : State) (n : Nat) : s.freeValue n < 2 ^ s.params.width := narrow_lt s _

/-- The destination of an aborted command keeps the low W bits of its free value. -/
theorem State.DataInv.unspecify {s : State} (h : s.DataInv) (d : Dest) :
    (s.unspecify d).DataInv := by
  cases d with
  | none => exact h
  | f d =>
    simp only [State.unspecify]
    split
    · exact h
    · rename_i hd
      exact (h.writeF d (Config.unspecifiedValue (s.draws + 0))).congr (by simp)
        (by simp [writeF_f, hd, State.freeValue]) (by simp) (by simp) (by simp)
  | pt d =>
    exact (h.setPt d (q := s.freePtReg 0) (freeValue_lt s _) (freeValue_lt s _)).congr
      rfl rfl rfl rfl rfl

theorem State.DataInv.hardReset {s : State} (h : s.DataInv) : s.hardReset.DataInv := by
  refine ⟨h.legal, fun r => ?_, by simp [State.hardReset]⟩
  cases r with
  | const c => cases c <;> exact freeValue_lt s _
  | mg => exact freeValue_lt s _
  | f i =>
    by_cases hi : i = 0
    · subst hi; exact Nat.two_pow_pos _
    · simpa [State.hardReset, State.regValue, State.readF, hi] using freeValue_lt s _
  | ptx i => simpa [State.hardReset, State.regValue, State.freePtReg] using freeValue_lt s _
  | pty i => simpa [State.hardReset, State.regValue, State.freePtReg] using freeValue_lt s _

/-! ### The turns of the block -/

/-- The model's own fields and FCMD are no part of the invariant. -/
theorem State.Inv.withModelFields {s : State} (h : s.Inv) (w : Option Word32) (ts : List Turn)
    (n : Nat) : ({ s with busData := w, turns := ts, draws := n } : State).Inv :=
  ⟨h.legal, h.fits, h.f0, h.oneEnd, h.busyClean, h.faultCode, h.latchedIsCmd, h.idleLadder,
    h.ladderOk⟩

/-- A command in progress that faults with a real code leaves a good state (60_exceptions.md
R182). -/
theorem State.Inv.takeFault {s : State} (h : s.Inv) (hb : s.status.busy = true) {c : FaultCode}
    (hc : c ≠ .noFault) : (s.takeFault c).Inv :=
  (h.dataInv.congr (t := s.takeFault c) rfl rfl rfl rfl rfl).inv_of_idle rfl
    (by simp [(h.busyClean hb).1]) (fun _ => hc) rfl

/-- A command in progress that completes, its destination written or not, leaves a good state. -/
theorem State.DataInv.endDone {s : State} (h : s.DataInv) (hf : s.status.fault = false)
    (rinf : Bool) : (s.endDone rinf).Inv :=
  (h.congr (t := s.endDone rinf) rfl rfl rfl rfl rfl).inv_of_idle rfl (by simp [hf]) (by simp [hf])
    rfl

/-- Every command, however it ends, leaves a good state. -/
theorem State.Inv.exec {s t : State} (h : s.Inv) (hb : s.status.busy = true) {i : Instr}
    (he : exec i s = .next t) : t.Inv := by
  have hf := (h.busyClean hb).2
  rcases exec_cases he with ⟨c, hc, rfl⟩ | ⟨-, rfl⟩ | ⟨d, v, -, rfl⟩ | ⟨d, P, -, rfl⟩
  · exact h.takeFault hb hc
  · exact h.dataInv.endDone hf false
  · exact (h.dataInv.writeF d v).endDone (by simpa using hf) false
  · exact (h.dataInv.writePt d P).endDone hf P.isInf

theorem State.Inv.sequencerTurn {s t : State} (h : s.Inv) (he : sequencerTurn s = .next t) :
    t.Inv := by
  rcases sequencerTurn_cases he with ⟨-, rfl⟩ | ⟨hb, i, -, hi⟩ | ⟨hb, -, rfl⟩
  · exact h
  · exact h.exec hb hi
  · exact h.takeFault hb (by decide)

/-- A Busy block stays good with an engine that is where the ladder says. -/
theorem State.Inv.withLadder {s : State} (h : s.Inv) (hb : s.status.busy = true) {l : Ladder}
    (hl : s.LadderAt l) : ({ s with ladder := some l } : State).Inv :=
  ⟨h.legal, h.fits, h.f0, h.oneEnd, h.busyClean, h.faultCode, h.latchedIsCmd,
    fun hi => by simp [hb] at hi, by rintro _ ⟨⟩; exact hl⟩

/-- One iteration of the ladder keeps the engine where the ladder says (42_scalar_mul.md R151). -/
theorem State.LadderAt.step {s : State} {l l' : Ladder} (h : s.LadderAt l) {neg : Bool}
    {d a : PReg} {b : FReg} (hd : decode s.latched = .ok (.pmul neg d a b))
    (hi : l.i < bitlen (s.readF b))
    (hbit : ladderBit s.consts.cp s.consts.ca (s.readF b) l = .ok l') : s.LadderAt l' := by
  obtain ⟨neg', d', a', b', hd', hlock, hcp, hk, hP, -, hrun⟩ := h
  obtain ⟨rfl, rfl, rfl, rfl⟩ : neg = neg' ∧ d = d' ∧ a = a' ∧ b = b' := by
    simpa [hd] using hd'
  refine ⟨neg, d, a, b, hd, hlock, hcp, hk, hP, ?_, ?_⟩
  · rw [ladderBit_i hbit]; omega
  · rw [ladderBit_i hbit, ladderRun_succ, hrun]; exact hbit

theorem State.Inv.engineTurn {s : State} (h : s.Inv) : (engineTurn s).Inv := by
  rcases engineTurn_cases s with
    he | ⟨neg, d, a, b, hb, hd, hlock, hcp, hk, hP, ⟨-, he⟩ | ⟨l, l', hl, hi, hbit, he⟩ |
      ⟨l, c, -, -, hbit, he⟩⟩ <;> rw [he]
  · exact h
  · exact h.withLadder hb ⟨neg, d, a, b, hd, hlock, hcp, hk, hP, Nat.zero_le _, rfl⟩
  · exact h.withLadder hb ((h.ladderOk l hl).step hd hi hbit)
  · exact h.takeFault hb (by rw [ladderBit_error_code hbit]; decide)

theorem State.Inv.hardReset {s : State} (h : s.Inv) : s.hardReset.Inv :=
  h.dataInv.hardReset.inv_of_idle rfl (by simp [State.hardReset, State.reset])
    (by simp [State.hardReset, State.reset]) rfl

/-! ### The host's writes -/

/-- Soft reset leaves a good state, the aborted command's destination included
(70_reset_and_hazards.md R212). -/
theorem State.Inv.softReset {s : State} (h : s.Inv) : s.softReset.Inv :=
  ((h.dataInv.unspecify s.destInProgress).congr (t := s.softReset) rfl rfl rfl rfl rfl).inv_of_idle
    rfl (by simp [State.softReset, State.reset]) (by simp [State.softReset, State.reset]) rfl

/-- IE may change and LOCK may be set: an engine under way has LOCK = 1 already. -/
theorem State.Inv.setCtrl {s : State} (h : s.Inv) (ie lk : Bool) :
    ({ s with ctrl := { ie := ie, lock := s.ctrl.lock || lk } } : State).Inv := by
  refine ⟨h.legal, h.fits, h.f0, h.oneEnd, h.busyClean, h.faultCode, h.latchedIsCmd, h.idleLadder,
    fun l hl => ?_⟩
  obtain ⟨neg, d, a, b, hd, hlock, hcp, hk, hP, hi, hrun⟩ := h.ladderOk l hl
  exact ⟨neg, d, a, b, hd, by simp [hlock], hcp, hk, hP, hi, hrun⟩

/-- New flags that clear DONE and FAULT at most, BUSY and FCODE kept, leave a good state. -/
theorem State.Inv.withStatus {s : State} (h : s.Inv) {t : Status} (hbusy : t.busy = s.status.busy)
    (hdone : t.done = true → s.status.done = true) (hfault : t.fault = true → s.status.fault = true)
    (hcode : t.fcode = s.status.fcode) : ({ s with status := t } : State).Inv := by
  refine ⟨h.legal, h.fits, h.f0, fun hb => h.oneEnd ⟨hdone hb.1, hfault hb.2⟩, fun hb => ?_,
    fun hf => ?_, fun hb => h.latchedIsCmd (hbusy ▸ hb), fun hb => h.idleLadder (hbusy ▸ hb),
    h.ladderOk⟩
  · obtain ⟨h1, h2⟩ := h.busyClean (hbusy ▸ hb)
    exact ⟨by simpa [h1] using hdone, by simpa [h2] using hfault⟩
  · simpa only [hcode] using h.faultCode (hfault hf)

theorem State.Inv.acceptCmd {s : State} (h : s.Inv) (hf : s.status.fault = false) (c : Word32) :
    (s.acceptCmd c).Inv :=
  ⟨h.legal, h.fits, h.f0, by simp, by simp [hf], by simp [hf], fun _ => rfl, by simp, by simp⟩

/-- While Idle the data registers may take any contents that fit. -/
theorem State.Inv.ofIdleData {s t : State} (h : s.Inv) (hb : s.status.busy = false)
    (hstatus : t.status = s.status) (hladder : t.ladder = s.ladder) (hdata : t.DataInv) : t.Inv :=
  hdata.inv_of_idle (by rw [hstatus, hb]) (by simpa only [hstatus] using h.oneEnd)
    (by simpa only [hstatus] using h.faultCode) (hladder.trans (h.idleLadder hb))

theorem State.Inv.writeTarget {s : State} (h : s.Inv) (v : Word32) (g : Target) :
    (s.writeTarget v g).Inv := by
  rcases writeTarget_cases s v g with he | ⟨-, -, he⟩ | ⟨-, -, he⟩ | he | ⟨-, hf, he⟩ | he | he |
    ⟨hb, pt', he, hpt⟩ | ⟨r, j, -, hb, -, he⟩ <;> rw [he]
  · exact h
  · exact h.softReset
  · exact h.setCtrl _ _
  · exact h.withStatus rfl (fun hd => ((Bool.and_eq_true _ _).mp hd).1)
      (fun hf => ((Bool.and_eq_true _ _).mp hf).1) rfl
  · exact h.acceptCmd hf v
  · exact h.withStatus rfl id id rfl
  · exact h.withStatus rfl id id rfl
  · refine h.ofIdleData hb rfl rfl (h.dataInv.withPt fun i => ?_)
    rw [(hpt i).1, (hpt i).2]
    exact ⟨h.fits (.ptx i), h.fits (.pty i)⟩
  · obtain ⟨-, hstatus, -, hladder, -⟩ := putReg_rest s (splice (s.regValue r) j v) r
    exact h.ofIdleData hb hstatus hladder (h.dataInv.putReg _ _)

theorem State.Inv.hostAccess {s t : State} (h : s.Inv) {a : Access}
    (he : hostAccess a s = .next t) : t.Inv := by
  obtain ⟨-, -, rfl⟩ := hostAccess_cases he
  rcases accessOffset_cases s (a.addr - s.params.base) a with ⟨w, n, ha⟩ | ⟨v, -, -, -, ha⟩ <;>
    rw [ha]
  · exact h.withModelFields w s.turns n
  · exact h.writeTarget v _

/-- Settles O3, by whose turn the step is: every operation keeps the data part, and each of the
block's and the host's turns the control part. -/
theorem stepKeepsInvariant : Obligations.StepKeepsInvariant := by
  intro s t h hs
  have hrest (rest : List Turn) : ({ s with turns := rest } : State).Inv :=
    h.withModelFields s.busData rest s.draws
  rcases step_cases hs with ⟨-, he⟩ | ⟨rest, -, he⟩ | ⟨rest, -, rfl⟩ | ⟨a, rest, -, he⟩ |
    ⟨c, rest, -, rfl⟩
  · exact h.sequencerTurn he
  · exact (hrest rest).sequencerTurn he
  · exact (hrest rest).engineTurn
  · exact (hrest rest).hostAccess he
  · exact (hrest rest).hardReset

/-- Settles O2: the data registers of the reset state are 0, and its control state is Idle. -/
theorem resetSatisfiesInvariant : Obligations.ResetSatisfiesInvariant := by
  have hdata : State.reset.DataInv := by
    refine ⟨by decide, fun r => ?_, by decide⟩
    have hr : State.reset.regValue r = 0 := by
      cases r with
      | const c => cases c <;> rfl
      | mg => rfl
      | f i => simp [State.regValue, State.readF, State.reset]
      | ptx i => simp [State.regValue, State.reset]
      | pty i => simp [State.regValue, State.reset]
    rw [hr]
    exact Nat.two_pow_pos _
  exact hdata.inv_of_idle rfl (by decide) (by decide) rfl

end Sys2Proof.Machine
end

section
/-! SUPPORT. What a turn of each agent leaves alone: the parameters, the curve constants, the record
of the last fault; and the statements that only certain steps change them. -/

namespace Sys2Proof.Machine

/-! ### The commands and the engine -/

/-- FCMD and FCODE are the same in both states (10_state.md R37). -/
def SameRecord (s t : State) : Prop := t.fcmd = s.fcmd ∧ t.status.fcode = s.status.fcode

theorem sameControl_refl (s : State) : SameControl s s := ⟨rfl, rfl, rfl, rfl, rfl, rfl, rfl⟩

theorem sameControl_writePt (s : State) (d : PReg) (P : Point) : SameControl s (s.writePt d P) :=
  ⟨rfl, rfl, rfl, rfl, rfl, rfl, rfl⟩

/-- No command writes a control register, a curve constant or MG (43_system.md R171). -/
theorem exec_keeps {i : Instr} {s t : State} (h : exec i s = .next t) :
    SameControl s t ∧ t.consts = s.consts ∧ t.mg = s.mg := by
  rcases exec_cases h with ⟨c, -, rfl⟩ | ⟨-, rfl⟩ | ⟨d, v, -, rfl⟩ | ⟨d, P, -, rfl⟩
  · exact ⟨sameControl_takeFault s c, rfl, rfl⟩
  · exact ⟨sameControl_endDone false (sameControl_refl s), rfl, rfl⟩
  · exact ⟨sameControl_endDone false (putReg_rest s v (.f d)).1, by simp, by simp⟩
  · exact ⟨sameControl_endDone P.isInf (sameControl_writePt s d P), rfl, rfl⟩

theorem sequencerTurn_keeps {s t : State} (h : sequencerTurn s = .next t) :
    SameControl s t ∧ t.consts = s.consts ∧ t.mg = s.mg := by
  rcases sequencerTurn_cases h with ⟨-, rfl⟩ | ⟨-, i, -, hi⟩ | ⟨-, -, rfl⟩
  · exact ⟨sameControl_refl _, rfl, rfl⟩
  · exact exec_keeps hi
  · exact ⟨sameControl_takeFault s _, rfl, rfl⟩

/-- The engine writes its own state, or ends the command with a fault (10_state.md R30 (b)). -/
theorem engineTurn_eq_or (s : State) :
    (∃ l, engineTurn s = { s with ladder := l }) ∨
    (s.status.busy = true ∧ engineTurn s = s.takeFault .invZero) := by
  rcases engineTurn_cases s with
    he | ⟨neg, d, a, b, hb, -, -, -, -, -, ⟨-, he⟩ | ⟨l, l', -, -, -, he⟩ | ⟨l, c, -, -, hbit, he⟩⟩
  · exact .inl ⟨s.ladder, he⟩
  · exact .inl ⟨_, he⟩
  · exact .inl ⟨_, he⟩
  · obtain rfl := ladderBit_error_code hbit
    exact .inr ⟨hb, he⟩

theorem engineTurn_keeps (s : State) :
    SameControl s (engineTurn s) ∧ (engineTurn s).consts = s.consts ∧ (engineTurn s).mg = s.mg := by
  rcases engineTurn_eq_or s with ⟨l, he⟩ | ⟨-, he⟩ <;> rw [he]
  · exact ⟨⟨rfl, rfl, rfl, rfl, rfl, rfl, rfl⟩, rfl, rfl⟩
  · exact ⟨sameControl_takeFault s _, rfl, rfl⟩

/-! ### The host -/

/-- A soft reset keeps the parameters, the curve constants and MG (70_reset_and_hazards.md R212). -/
theorem softReset_keeps (s : State) :
    s.softReset.params = s.params ∧ s.softReset.consts = s.consts ∧ s.softReset.mg = s.mg := by
  unfold State.softReset
  cases s.destInProgress with
  | none => exact ⟨rfl, rfl, rfl⟩
  | f d => simp only [State.unspecify]; split <;> exact ⟨rfl, rfl, rfl⟩
  | pt d => exact ⟨rfl, rfl, rfl⟩

/-- An answered access changes the bus word and the count of draws alone, or writes one target with
a full word at an aligned offset (20_memory.md R66, R67). -/
theorem hostAccess_write_cases {a : Access} {s t : State} (h : hostAccess a s = .next t) :
    (∃ w n, t = { s with busData := w, draws := n }) ∨
    (∃ v off, a.kind = .write v ∧ a.lanes = 0xF ∧ a.addr = s.params.base + off ∧ off % 4 = 0 ∧
      t = s.writeTarget v (target off)) := by
  obtain ⟨hbase, -, rfl⟩ := hostAccess_cases h
  rcases accessOffset_cases s (a.addr - s.params.base) a with hr | ⟨v, hk, hal, hl, hw⟩
  · exact .inl hr
  · exact .inr ⟨v, _, hk, hl, by omega, hal, hw⟩

/-- A host write is the soft reset, or writes a windowed register that is neither locked nor in use,
or keeps the parameters, the curve constants and the record of the last fault. -/
theorem writeTarget_keeps_or (s : State) (v : Word32) (g : Target) :
    (g = .ctrl ∧ v.getLsbD 2 = true ∧ s.writeTarget v g = s.softReset) ∨
    (∃ r j, g = .window r j ∧ s.status.busy = false ∧ (s.ctrl.lock = true → r.lockable = false) ∧
      s.writeTarget v g = s.putReg (splice (s.regValue r) j v) r) ∨
    ((s.writeTarget v g).params = s.params ∧ (s.writeTarget v g).consts = s.consts ∧
      SameRecord s (s.writeTarget v g)) := by
  rcases writeTarget_cases s v g with he | hsoft | ⟨-, -, he⟩ | he | ⟨-, -, he⟩ | he | he |
    ⟨-, pt', he, -⟩ | hwin
  case inr.inl => exact .inl hsoft
  case inr.inr.inr.inr.inr.inr.inr.inr => exact .inr (.inl hwin)
  all_goals rw [he]; exact .inr (.inr ⟨rfl, rfl, rfl, rfl⟩)

theorem writeTarget_params (s : State) (v : Word32) (g : Target) :
    (s.writeTarget v g).params = s.params := by
  rcases writeTarget_keeps_or s v g with ⟨-, -, he⟩ | ⟨r, j, -, -, -, he⟩ | ⟨hparams, -, -⟩
  · exact he ▸ (softReset_keeps s).1
  · exact he ▸ (putReg_rest s _ r).1.params
  · exact hparams

theorem hostAccess_params {a : Access} {s t : State} (h : hostAccess a s = .next t) :
    t.params = s.params := by
  rcases hostAccess_write_cases h with ⟨w, n, rfl⟩ | ⟨v, off, -, -, -, -, rfl⟩
  · rfl
  · exact writeTarget_params s v _

/-- A window write changes the curve constants only in a curve constant's window. -/
theorem putReg_consts {s : State} {v : Nat} {r : WinReg} (h : (s.putReg v r).consts ≠ s.consts) :
    ∃ c, r = .const c := by
  cases r with
  | const c => exact ⟨c, rfl⟩
  | f i => exact absurd (writeF_consts s i v) h
  | _ => exact absurd rfl h

/-- A write that changes a curve constant goes to its window, while unlocked and Idle (10_state.md
R27). -/
theorem writeTarget_consts {s : State} {v : Word32} {g : Target}
    (h : (s.writeTarget v g).consts ≠ s.consts) :
    ∃ c j, g = .window (.const c) j ∧ s.ctrl.lock = false ∧ s.status.busy = false := by
  rcases writeTarget_keeps_or s v g with ⟨-, -, he⟩ | ⟨r, j, hg, hb, hlock, he⟩ | ⟨-, hconsts, -⟩
  · exact absurd (he ▸ (softReset_keeps s).2.1) h
  · rw [he] at h
    obtain ⟨c, rfl⟩ := putReg_consts h
    exact ⟨c, j, hg, by simpa [WinReg.lockable] using hlock, hb⟩
  · exact absurd hconsts h

/-- The control register at word 2 is CTRL (20_memory.md R62). -/
theorem slot_of_controlSlot_ctrl {n : Nat} (h : controlSlot n = .ctrl) : n = 2 := by
  unfold controlSlot at h
  split at h <;> simp_all

/-- The one aligned offset that names CTRL (20_memory.md R62). -/
theorem offset_of_target_ctrl {off : Nat} (h : target off = .ctrl) (ha : off % 4 = 0) :
    off = 0x0008 := by
  unfold target at h
  simp only at h
  split at h
  · have := slot_of_controlSlot_ctrl h
    omega
  · repeat' split at h
    all_goals cases h

/-! ### The record of the last fault -/

theorem exec_record {i : Instr} {s t : State} (h : exec i s = .next t) :
    SameRecord s t ∨ ∃ c, c ≠ .noFault ∧ t = s.takeFault c := by
  rcases exec_cases h with hc | ⟨-, rfl⟩ | ⟨d, v, -, rfl⟩ | ⟨d, P, -, rfl⟩
  · exact .inr hc
  · exact .inl ⟨rfl, rfl⟩
  · exact .inl ⟨by simp, by simp⟩
  · exact .inl ⟨rfl, rfl⟩

/-- The sequencer changes the record only by the fault of the command in progress. -/
theorem sequencerTurn_record {s t : State} (h : sequencerTurn s = .next t) :
    SameRecord s t ∨ (s.status.busy = true ∧ ∃ c, c ≠ .noFault ∧ t = s.takeFault c) := by
  rcases sequencerTurn_cases h with ⟨-, rfl⟩ | ⟨hb, i, -, hi⟩ | ⟨hb, -, rfl⟩
  · exact .inl ⟨rfl, rfl⟩
  · exact (exec_record hi).imp_right fun hc => ⟨hb, hc⟩
  · exact .inr ⟨hb, _, by decide, rfl⟩

theorem engineTurn_record (s : State) :
    SameRecord s (engineTurn s) ∨
    (s.status.busy = true ∧ ∃ c, c ≠ .noFault ∧ engineTurn s = s.takeFault c) := by
  rcases engineTurn_eq_or s with ⟨l, he⟩ | ⟨hb, he⟩
  · exact .inl (he ▸ ⟨rfl, rfl⟩)
  · exact .inr ⟨hb, _, by decide, he⟩

/-- A host write changes the record only by a soft reset. -/
theorem writeTarget_record (s : State) (v : Word32) (g : Target) :
    SameRecord s (s.writeTarget v g) ∨ (g = .ctrl ∧ v.getLsbD 2 = true) := by
  rcases writeTarget_keeps_or s v g with ⟨hg, hv, -⟩ | ⟨r, j, -, -, -, he⟩ | ⟨-, -, hrecord⟩
  · exact .inr ⟨hg, hv⟩
  · obtain ⟨-, hstatus, hfcmd, -, -⟩ := putReg_rest s (splice (s.regValue r) j v) r
    exact .inl (he ▸ ⟨hfcmd, by rw [hstatus]⟩)
  · exact .inl hrecord

/-- A command in progress that faults records its accepted word and a real code. -/
theorem State.Inv.takeFault_record {s : State} (h : s.Inv) (hb : s.status.busy = true)
    {c : FaultCode} (hc : c ≠ .noFault) :
    (s.takeFault c).status.busy = false ∧ (s.takeFault c).status.fault = true ∧
      (s.takeFault c).fcmd = s.cmd ∧ (s.takeFault c).status.fcode ≠ .noFault :=
  ⟨rfl, rfl, h.latchedIsCmd hb, hc⟩

/-! ### Over every step -/

/-- No step changes W or BASE. -/
theorem step_params {s t : State} (h : step s = .next t) : t.params = s.params := by
  rcases step_cases h with ⟨-, he⟩ | ⟨rest, -, he⟩ | ⟨rest, -, rfl⟩ | ⟨a, rest, -, he⟩ |
    ⟨c, rest, -, rfl⟩
  · exact (sequencerTurn_keeps he).1.params
  · exact (sequencerTurn_keeps he).1.params
  · exact (engineTurn_keeps _).1.params
  · exact (hostAccess_params he :)
  · rfl

/-- Settles O43: the sequencer and the engine keep the curve constants, and of the host's writes
only the one to a constant's window, unlocked and Idle, does not. -/
theorem curveConstantsChangeOnlyUnlockedAndIdle :
    Obligations.CurveConstantsChangeOnlyUnlockedAndIdle := by
  intro s t h hne
  rcases step_cases h with ⟨-, he⟩ | ⟨rest, -, he⟩ | ⟨rest, -, rfl⟩ | ⟨a, rest, hs, he⟩ |
    ⟨c, rest, hs, -⟩
  · exact absurd (sequencerTurn_keeps he).2.1 hne
  · exact absurd (sequencerTurn_keeps he).2.1 hne
  · exact absurd (engineTurn_keeps _).2.1 hne
  · rcases hostAccess_write_cases he with ⟨w, n, rfl⟩ | ⟨v, off, hk, hl, haddr, -, rfl⟩
    · exact absurd rfl hne
    · obtain ⟨c, j, hg, hlock, hb⟩ := writeTarget_consts hne
      refine .inl ⟨a, rest, v, c, j, hs, hk, hl, ?_, hlock, hb⟩
      rw [haddr, Nat.add_sub_cancel_left, hg]
  · exact .inr ⟨c, rest, hs⟩

/-- The step part of FaultRecordIsOfTheLastFault: a step that changes the record is a fault of the
command in progress, a soft reset or a hardware reset. -/
theorem step_record {s t : State} (hinv : s.Inv) (h : step s = .next t) :
    SameRecord s t ∨
    (s.status.busy = true ∧ t.status.busy = false ∧ t.status.fault = true ∧ t.fcmd = s.cmd ∧
      t.status.fcode ≠ .noFault) ∨
    (∃ a rest v, s.turns = .host a :: rest ∧ a.addr = s.params.base + 0x0008 ∧ a.lanes = 0xF ∧
      a.kind = .write v ∧ v.getLsbD 2 = true) ∨
    (∃ c rest, s.turns = .reset c :: rest) := by
  have hrest (rest : List Turn) : ({ s with turns := rest } : State).Inv :=
    hinv.withModelFields s.busData rest s.draws
  rcases step_cases h with ⟨-, he⟩ | ⟨rest, -, he⟩ | ⟨rest, -, rfl⟩ | ⟨a, rest, hs, he⟩ |
    ⟨c, rest, hs, -⟩
  · rcases sequencerTurn_record he with hr | ⟨hb, c, hc, rfl⟩
    · exact .inl hr
    · exact .inr (.inl ⟨hb, hinv.takeFault_record hb hc⟩)
  · rcases sequencerTurn_record he with hr | ⟨hb, c, hc, rfl⟩
    · exact .inl hr
    · exact .inr (.inl ⟨hb, (hrest rest).takeFault_record hb hc⟩)
  · rcases engineTurn_record { s with turns := rest } with hr | ⟨hb, c, hc, he⟩
    · exact .inl hr
    · exact .inr (.inl ⟨hb, he ▸ (hrest rest).takeFault_record hb hc⟩)
  · rcases hostAccess_write_cases he with ⟨w, n, rfl⟩ | ⟨v, off, hk, hl, haddr, hal, rfl⟩
    · exact .inl ⟨rfl, rfl⟩
    · rcases writeTarget_record { s with turns := rest } v (target off) with hr | ⟨hg, hv⟩
      · exact .inl hr
      · obtain rfl := offset_of_target_ctrl hg hal
        exact .inr (.inr (.inl ⟨a, rest, v, hs, haddr, hl, hk, hv⟩))
  · exact .inr (.inr (.inr ⟨c, rest, hs⟩))

/-! ### The control registers on the bus -/

/-- A read of a target that drives a word reads that word (20_memory.md R67). -/
theorem reads_of_readTarget {s : State} {off : Nat} {w : Word32} (h : off < 0x8000)
    (ha : off % 4 = 0) (hr : s.readTarget (target off) = s.drive w) : Reads s off w := by
  unfold Reads
  rw [hostAccess_readAt s h ha, hr]
  rfl

theorem reads_id (s : State) : Reads s 0x0000 0x45434331 :=
  reads_of_readTarget (by decide) (by decide) rfl

theorem reads_param (s : State) : Reads s 0x0004 s.paramWord :=
  reads_of_readTarget (by decide) (by decide) rfl

theorem reads_ctrl (s : State) : Reads s 0x0008 s.ctrl.word :=
  reads_of_readTarget (by decide) (by decide) rfl

theorem reads_status (s : State) : Reads s 0x000C s.status.word :=
  reads_of_readTarget (by decide) (by decide) rfl

theorem reads_cmd (s : State) : Reads s 0x0010 s.cmd :=
  reads_of_readTarget (by decide) (by decide) rfl

theorem reads_fcmd (s : State) : Reads s 0x0014 s.fcmd :=
  reads_of_readTarget (by decide) (by decide) rfl

/-- PTINF is specified while Idle (20_memory.md R68). -/
theorem reads_ptinf {s : State} (hb : s.status.busy = false) : Reads s 0x0018 s.ptinfWord :=
  reads_of_readTarget (by decide) (by decide)
    (if_neg (Bool.eq_false_iff.mp hb) : s.readTarget .ptinf = s.drive s.ptinfWord)

/-- A write to a read-only register is ignored (10_state.md R31, R32, R37). -/
theorem ignored_of_writeTarget {s : State} {off : Nat} {v : Word32} (h : off < 0x8000)
    (ha : off % 4 = 0) (hw : s.writeTarget v (target off) = s) : Ignored s off v := by
  unfold Ignored
  rw [hostAccess_writeAt s v h ha, hw]

theorem hostAccess_write_ctrl (s : State) (v : Word32) :
    hostAccess (writeAt s 0x0008 v) s = .next (s.ctrlWrite v) :=
  hostAccess_writeAt s v (by decide) (by decide)

theorem hostAccess_write_status (s : State) (v : Word32) :
    hostAccess (writeAt s 0x000C v) s = .next (s.statusWrite v) :=
  hostAccess_writeAt s v (by decide) (by decide)

theorem hostAccess_write_cmd (s : State) (c : Word32) :
    hostAccess (writeAt s 0x0010 c) s = .next (s.cmdWrite c) :=
  hostAccess_writeAt s c (by decide) (by decide)

theorem hostAccess_write_ptinf (s : State) (v : Word32) :
    hostAccess (writeAt s 0x0018 v) s = .next (s.ptinfWrite v) :=
  hostAccess_writeAt s v (by decide) (by decide)

/-- Settles O57, by the record's change over every step and the read-only FCMD. -/
theorem faultRecordIsOfTheLastFault : Obligations.FaultRecordIsOfTheLastFault := by
  refine ⟨fun s t hinv h hne => ?_, fun s v =>
    ⟨reads_fcmd s, ignored_of_writeTarget (by decide) (by decide) rfl⟩⟩
  rcases step_record hinv h with ⟨hcmd, hcode⟩ | hr
  · rcases hne with hn | hn
    · exact absurd hcmd hn
    · exact absurd hcode hn
  · exact hr

end Sys2Proof.Machine
end

section
/-! SUPPORT. The words of the control registers bit by bit, what the host reads and writes at their
offsets, and the statements about them. -/

namespace Sys2Proof.Machine

/-! ### Words bit by bit -/

/-- The layout of STATUS (10_state.md R34). -/
theorem getLsbD_statusWord (t : Status) {n : Nat} (hn : n < 32) :
    t.word.getLsbD n = (decide (n = 0) && t.busy || decide (n = 1) && t.done ||
      decide (n = 2) && t.fault || decide (n = 3) && t.rinf ||
      decide (4 ≤ n) && t.fcode.bits.getLsbD (n - 4) || decide (n = 8) && t.cmdDrop ||
      decide (n = 9) && t.wrDrop) := by
  have hb : t.fcode.bits.getLsbD (n - 4) = (decide (n < 32) && t.fcode.bits.getLsbD (n - 4)) := by
    simp [hn]
  rw [hb]
  simp only [Status.word, BitVec.getLsbD_or, getLsbD_bitAt, BitVec.getLsbD_shiftLeft,
    BitVec.getLsbD_setWidth]
  by_cases h4 : 4 ≤ n
  · simp [hn, h4, show n - 4 < 32 by omega, Nat.not_lt.mpr h4]
  · simp [hn, h4, Nat.lt_of_not_le h4]

/-- The layout of CTRL (10_state.md R33). -/
theorem getLsbD_ctrlWord (c : Ctrl) {n : Nat} (hn : n < 32) :
    c.word.getLsbD n = (decide (n = 0) && c.ie || decide (n = 1) && c.lock) := by
  simp [Ctrl.word, hn]

/-- The layout of PTINF (10_state.md R38). -/
theorem getLsbD_ptinfWord (s : State) (i : PReg) : s.ptinfWord.getLsbD i.val = s.pt[i].inf := by
  fin_cases i <;> simp [State.ptinfWord]

theorem getLsbD_ptinfWord_high (s : State) {n : Nat} (hn : 8 ≤ n) :
    s.ptinfWord.getLsbD n = false := by
  simp [State.ptinfWord, show n ≠ 0 by omega, show n ≠ 1 by omega, show n ≠ 2 by omega,
    show n ≠ 3 by omega, show n ≠ 4 by omega, show n ≠ 5 by omega, show n ≠ 6 by omega,
    show n ≠ 7 by omega]

/-- PARAM shows W whole: a legal W has fewer than 16 bits (10_state.md R32). -/
theorem toNat_paramWord {s : State} (h : s.params.Legal) :
    s.paramWord.toNat = s.params.width + 16 * 2 ^ 16 + 8 * 2 ^ 24 := by
  obtain ⟨-, hw⟩ := h
  simp only [State.paramWord, Config.numF, Config.numPt, BitVec.toNat_ofNat]
  omega

/-! ### The statements about the control registers -/

/-- Settles O1: each register's read at reset. -/
theorem resetGivesStatedValues : Obligations.ResetGivesStatedValues :=
  ⟨reads_id _, reads_param _, reads_ctrl _, reads_status _, reads_cmd _, reads_fcmd _, rfl, rfl⟩

/-- Settles O45: W and BASE over every step, and both registers on the bus. -/
theorem identityAndParametersAreConstant : Obligations.IdentityAndParametersAreConstant :=
  ⟨fun _ _ => step_params, fun s _ =>
    ⟨ignored_of_writeTarget (by decide) (by decide) rfl,
      ignored_of_writeTarget (by decide) (by decide) rfl,
      reads_id s, s.paramWord, reads_param s, toNat_paramWord⟩⟩

/-- Settles O46: the two branches of a CMD write. -/
theorem cmdWriteAcceptsExactlyWhenIdleAndUnfaulted :
    Obligations.CmdWriteAcceptsExactlyWhenIdleAndUnfaulted := by
  intro s c
  rw [hostAccess_write_cmd]
  refine ⟨reads_cmd s, fun hb hf => ?_, fun hbf => ?_⟩
  · have haccept : s.cmdWrite c = s.acceptCmd c := by simp [State.cmdWrite, hb, hf]
    rw [haccept]
    exact ⟨_, rfl, rfl, rfl, rfl, rfl, rfl, rfl, rfl, rfl, rfl, rfl⟩
  · have hdrop : s.cmdWrite c = s.dropCmd := by
      rcases hbf with h | h <;> simp [State.cmdWrite, h]
    rw [hdrop]
    rfl

/-- Settles O47: the layout of STATUS before and after the write. -/
theorem statusWriteClearsOnlyWrittenOnes : Obligations.StatusWriteClearsOnlyWrittenOnes := by
  intro s v
  refine ⟨s.statusWrite v, s.status.word, (s.status.cleared v).word, hostAccess_write_status s v,
    rfl, reads_status s, reads_status _, fun n hn => ?_, fun n hn => ?_⟩
  · rw [getLsbD_statusWord _ hn, getLsbD_statusWord _ hn]
    interval_cases n <;> simp [Status.cleared]
  · rw [getLsbD_statusWord _ hn]
    interval_cases n <;> simp

/-- Settles O48: the write without SRST, the layout of CTRL, and the line after the write. -/
theorem ctrlWriteSetsEnableAndLock : Obligations.CtrlWriteSetsEnableAndLock := by
  intro s v hv
  have hw : hostAccess (writeAt s 0x0008 v) s =
      .next { s with ctrl := { ie := v.getLsbD 0, lock := s.ctrl.lock || v.getLsbD 1 } } := by
    rw [hostAccess_write_ctrl, State.ctrlWrite, if_neg (Bool.eq_false_iff.mp hv)]
  refine ⟨hw, ⟨s.ctrl.word, reads_ctrl s, fun n hn => ?_⟩, fun hie hend t ht => ?_⟩
  · rw [getLsbD_ctrlWord _ hn]
    interval_cases n <;> simp
  · rw [hw] at ht
    cases ht
    simpa [State.irq, hie] using hend

/-- Settles O58: the layout of PTINF, and its write while Idle. -/
theorem ptinfHoldsTheInfBits : Obligations.PtinfHoldsTheInfBits := by
  intro s v hb
  refine ⟨⟨s.ptinfWord, reads_ptinf hb, getLsbD_ptinfWord s, fun n => getLsbD_ptinfWord_high s⟩,
    _, hostAccess_write_ptinf s v, ?_⟩
  simp [State.ptinfWrite, hb]

/-! ### F0 -/

/-- A command whose destination is F0 leaves the F file as it was (10_state.md R21). -/
theorem exec_f_of_dest_zero {i : Instr} {s t : State} (h : exec i s = .next t)
    (hd : destOf i = .f 0) : t.f = s.f := by
  rcases exec_cases h with ⟨c, -, rfl⟩ | ⟨-, rfl⟩ | ⟨d, v, hd', rfl⟩ | ⟨d, P, -, rfl⟩
  · rfl
  · rfl
  · obtain rfl : d = 0 := by simpa [hd] using hd'.symm
    rfl
  · rfl

/-- Settles O35: the read, the discarded result, and the window of F0 on the bus. -/
theorem fieldRegisterZeroIsHardwired : Obligations.FieldRegisterZeroIsHardwired := by
  refine fun s => ⟨rfl, fun i t => exec_f_of_dest_zero, fun hb j v hj => ?_⟩
  have htarget : target (0x2000 + 4 * j) = .window (.f 0) j := target_f 0 hj
  refine ⟨ignored_of_writeTarget (by omega) (by omega) ?_,
    reads_of_readTarget (by omega) (by omega) ?_⟩
  · rw [htarget]
    simp [State.writeTarget, State.windowWrite, hb, WinReg.lockable, State.putReg, State.writeF]
  · rw [htarget]
    simp [State.readTarget, hb, State.regValue, State.readF, windowWord]

end Sys2Proof.Machine
end

section
/-! SUPPORT. What a step runs, and which curve constants a command reads. -/

namespace Sys2Proof

/-- The decoder reads an encoded MSEL as its modulus (30_encoding.md R84). -/
@[simp] theorem Decoder.modulus_mk_encode (m : Modulus) (opc : BitVec 6) (d a b : BitVec 4)
    (neg : BitVec 1) (rsv : BitVec 11) :
    Decoder.modulus ⟨opc, Encoder.msel m, d, a, b, neg, rsv⟩ = .ok m :=
  Decoder.modulus_encode m _ rfl

/-- An encoded NEG is read as the flag it encodes. -/
@[simp] theorem Encoder.ofBool_beq_one (neg : Bool) : (BitVec.ofBool neg == 1#1) = neg := by
  cases neg <;> rfl

/-- The decoder gives an encoded command back: on its fields every check of 30_encoding.md R87
passes, and every field is read as what it encodes. -/
theorem decode_encode (i : Instr) : decode (encode i) = .ok i := by
  rw [encode, decode_toWord]
  cases i <;>
    simp [decodeFields, Instr.fields, Encoder.blank, Decoder.noNeg, Decoder.noMsel, Decoder.unused,
      bind, Except.bind, pure, Except.pure]

end Sys2Proof

namespace Sys2Proof.Machine

/-! ### The step that runs a command -/

/-- A Busy block's sequencer executes the command its latched word decodes to. -/
theorem sequencerTurn_of_decode {s : State} {i : Instr} (hb : s.status.busy = true)
    (hd : decode s.latched = .ok i) : sequencerTurn s = exec i s := by
  simp [sequencerTurn, hb, hd]

theorem sequencerTurn_of_illegal {s : State} {e : Reject} (hb : s.status.busy = true)
    (hd : decode s.latched = .error e) : sequencerTurn s = .next (s.takeFault .illegal) := by
  simp [sequencerTurn, hb, hd]

/-- The command word of a 32-bit table word is that word. -/
theorem tableWord_toNat (w : Word32) : tableWord 32 w.toNat = w := by
  rw [tableWord, Nat.mod_eq_of_lt w.isLt, BitVec.ofNat_toNat, BitVec.setWidth_eq]

/-- Settles O4: the sequencer's turn on an empty list and on its own, and the word just accepted. -/
theorem stepRunsDecodedCommand : Obligations.StepRunsDecodedCommand := by
  refine ⟨fun s i hb hd => ⟨fun ht => ?_, fun rest ht => ?_⟩, fun s e hb hd ht => ?_, fun s i => ?_⟩
  · rw [step_nil ht, sequencerTurn_of_decode hb hd]
  · rw [step_cons ht]
    exact sequencerTurn_of_decode (s := { s with turns := rest }) hb hd
  · rw [step_nil ht, sequencerTurn_of_illegal hb hd]
  · rw [State.withFetchWord, tableWord_toNat, step_nil rfl]
    exact sequencerTurn_of_decode rfl (decode_encode i)

/-! ### CB and CH -/

/-- The state with other contents of CB and CH. -/
def State.withUnread (s : State) (b h : Nat) : State :=
  { s with consts := { s.consts with cb := b, ch := h } }

/-- Ending a command with an F destination neither reads nor writes CB or CH. -/
theorem finishF_withUnread (s : State) (d : FReg) (r : Except FaultCode Nat) (b h : Nat) :
    ∃ t, s.finishF d r = .next t ∧ (s.withUnread b h).finishF d r = .next (t.withUnread b h) := by
  cases r with
  | error c => exact ⟨_, rfl, rfl⟩
  | ok v =>
    refine ⟨_, rfl, ?_⟩
    simp only [State.finishF, State.writeF]
    split <;> rfl

theorem finishPt_withUnread (s : State) (d : PReg) (r : Except FaultCode Point) (b h : Nat) :
    ∃ t, s.finishPt d r = .next t ∧ (s.withUnread b h).finishPt d r = .next (t.withUnread b h) := by
  cases r with
  | error c => exact ⟨_, rfl, rfl⟩
  | ok P => cases P <;> exact ⟨_, rfl, rfl⟩

/-- Settles O33: whatever a command computes is the same with other contents of CB and CH, and so is
the way it ends. -/
theorem coefficientBAndCofactorAreUnread : Obligations.CoefficientBAndCofactorAreUnread := by
  intro i s b h
  cases i with
  | nop => exact ⟨_, rfl, rfl⟩
  | madd _ d _ _ | msub _ d _ _ | mmul _ d _ _ | minv _ d _ | mpow _ d _ _ | pgetx d _
  | pgety d _ => exact finishF_withUnread s d _ b h
  | fmov d a => exact finishF_withUnread s d (.ok (s.readF a)) b h
  | padd d _ _ | pdbl d _ | pneg d _ | pmul _ d _ _ | pldg d => exact finishPt_withUnread s d _ b h
  | pset d x y => exact finishPt_withUnread s d (.ok (.affine (s.readF x) (s.readF y))) b h
  | pinf d => exact finishPt_withUnread s d (.ok .inf) b h
  | pmov d a => exact finishPt_withUnread s d (.ok (s.readPt a)) b h

end Sys2Proof.Machine
end

section
/-! SUPPORT. The host's accesses by what they reach: words of a window, reserved offsets, accesses the
block does not perform, addresses outside the map; and the statements about them and about whose turn
a step takes. -/

namespace Sys2Proof.Machine

/-! ### Whose turn it is -/

/-- Settles O5: the oldest turn by its agent, and the sequencer with nothing to do. -/
theorem stepTakesTheOldestTurn : Obligations.StepTakesTheOldestTurn := by
  refine fun s rest => ⟨fun a h => step_cons h, fun h => step_cons h, fun c h => step_cons h,
    fun h hb => ?_⟩
  rw [step_nil h]
  simp [sequencerTurn, hb]

/-- The sequencer's turn answers a next state: it executes, faults or waits. -/
theorem sequencerTurn_answers (s : State) : ∃ t, sequencerTurn s = .next t := by
  by_cases hb : s.status.busy = true
  · cases hd : decode s.latched with
    | ok i => rw [sequencerTurn_of_decode hb hd]; exact exec_answers i s
    | error e => exact ⟨_, sequencerTurn_of_illegal hb hd⟩
  · exact ⟨s, if_neg hb⟩

/-- The block decodes exactly the addresses BASE + 0x0000–0x7FFF (20_memory.md R61). -/
theorem decodes_iff (s : State) (addr : Nat) :
    s.decodes addr = true ↔ s.params.base ≤ addr ∧ addr < s.params.base + 0x8000 := by
  rw [State.decodes, Bool.and_eq_true]
  exact and_congr decide_eq_true_iff decide_eq_true_iff

/-- Settles O42: every agent's turn answers but the host's, which answers where the address is
decoded. -/
theorem stepStopsOnlyOutsideRegisterMap : Obligations.StepStopsOnlyOutsideRegisterMap := by
  intro s
  cases ht : s.turns with
  | nil => exact .inl (step_nil ht ▸ sequencerTurn_answers s)
  | cons x rest =>
    rw [step_cons ht]
    cases x with
    | sequencer => exact .inl (sequencerTurn_answers _)
    | engine => exact .inl ⟨_, rfl⟩
    | reset c => exact .inl ⟨_, rfl⟩
    | host a =>
      by_cases hd : State.decodes { s with turns := rest } a.addr = true
      · exact .inl ⟨_, if_pos hd⟩
      · exact .inr ⟨a, rest, rfl, mt (decodes_iff { s with turns := rest } a.addr).mpr hd,
          if_neg hd⟩

/-! ### Words of a window -/

/-- A window word is readable but where a command may be using the register (20_memory.md R68). -/
theorem reads_window {s : State} {r : WinReg} {j : Nat} (hj : j < 128)
    (hr : s.status.busy = true → r.usedByCommands = false) :
    Reads s (r.offset + 4 * j) (windowWord (s.regValue r) j) := by
  obtain ⟨hlt, ha⟩ := offset_bounds r hj
  refine reads_of_readTarget hlt ha ?_
  rw [target_window r hj]
  have hfree : ¬ (s.status.busy && r.usedByCommands) = true := by simpa using hr
  exact if_neg hfree

/-- Settles O51: the word of the window, bit by bit. -/
theorem windowWordsReadTheRegister : Obligations.WindowWordsReadTheRegister :=
  fun s r j hj hr => ⟨_, reads_window hj hr, fun t => getLsbD_windowWord (s.regValue r) j t⟩

/-- A window write that is not dropped replaces one word of its register (20_memory.md R64, R68,
R69). -/
theorem hostAccess_write_window {s : State} {r : WinReg} {j : Nat} (v : Word32) (hj : j < 128)
    (hb : s.status.busy = false) (hl : s.ctrl.lock = true → r.lockable = false) :
    hostAccess (writeAt s (r.offset + 4 * j) v) s =
      .next (s.putReg (splice (s.regValue r) j v) r) := by
  obtain ⟨hlt, ha⟩ := offset_bounds r hj
  have hopen : ¬ (s.status.busy || s.ctrl.lock && r.lockable) = true := by simpa [hb] using hl
  rw [hostAccess_writeAt s v hlt ha, target_window r hj]
  exact congrArg _ (if_neg hopen)

/-- The bits a register keeps are those below W (00_scope.md R10). -/
theorem testBit_narrow (s : State) (v n : Nat) :
    (s.narrow v).testBit n = (decide (n < s.params.width) && v.testBit n) :=
  Nat.testBit_mod_two_pow v s.params.width n

/-- Settles O52: the register holds the spliced value narrowed, and nothing else is written. -/
theorem windowWritesChangeOnlyTheirBits : Obligations.WindowWritesChangeOnlyTheirBits := by
  intro s r j v _ hj hb hl hr
  obtain ⟨hcontrol, hstatus, hfcmd, hladder, hinf⟩ := putReg_rest s (splice (s.regValue r) j v) r
  refine ⟨_, hostAccess_write_window v hj hb hl, fun n => ?_, fun r' hne => ?_, hinf, hstatus,
    hcontrol, hfcmd, hladder⟩
  · rw [regValue_putReg, if_pos rfl, if_neg hr, testBit_narrow, testBit_splice, wordLow,
      show 4064 - 32 * j + 32 = 4096 - 32 * j by omega]
  · rw [regValue_putReg, if_neg hne]

/-! ### Accesses that do nothing -/

/-- An access at an offset of the map is the block's to answer (20_memory.md R61). -/
theorem hostAccess_offset (s : State) {off : Nat} (h : off < 0x8000) (lanes : BitVec 4)
    (k : AccessKind) :
    hostAccess { addr := s.params.base + off, lanes := lanes, kind := k } s =
      .next (s.accessOffset off { addr := s.params.base + off, lanes := lanes, kind := k }) := by
  simp [hostAccess, decodes_of_lt s h]

/-- No control register follows PTINF (20_memory.md R62). -/
theorem controlSlot_reserved (n : Nat) : controlSlot (n + 7) = .reserved := rfl

/-- The reserved offsets of the map (20_memory.md R63). -/
theorem target_reserved {off : Nat} (h : (0x001C ≤ off ∧ off < 0x1000) ∨ 0x6000 ≤ off) :
    target off = .reserved := by
  unfold target
  rcases h with ⟨hlo, hhi⟩ | h
  · rw [if_pos hhi, show off / 4 = off / 4 - 7 + 7 by omega, controlSlot_reserved]
  · rw [if_neg (by omega), if_neg (by omega), if_neg (by omega), if_neg (by omega)]

/-- Settles O55: the access is not performed, or it reaches a reserved offset. -/
theorem reservedAndPartialAccessesDoNothing : Obligations.ReservedAndPartialAccessesDoNothing := by
  intro s off lanes v hlt h
  rw [hostAccess_offset s hlt, hostAccess_offset s hlt]
  by_cases hp : performed off lanes = true
  · have hres : target off = .reserved := by
      simp only [performed, Bool.and_eq_true, beq_iff_eq] at hp
      exact target_reserved (by tauto)
    simp [State.accessOffset, hres, State.readTarget, State.writeTarget, State.drive]
  · simp [State.accessOffset, hp, State.drive]

/-! ### Reads -/

/-- A full-word read drives a word, and draws a free value where the word is unspecified (20_memory.md
R67, R68). -/
theorem readTarget_drives (s : State) (g : Target) :
    ∃ w n, s.readTarget g = { s with busData := some w, draws := n } := by
  cases g with
  | id | param | ctrl | status | cmd | fcmd | reserved => exact ⟨_, _, rfl⟩
  | ptinf | window r j =>
    simp only [State.readTarget]
    split <;> exact ⟨_, _, rfl⟩

/-- A read drives a word, performed or not (20_memory.md R66, R67). -/
theorem accessOffset_read_drives (s : State) (off : Nat) {a : Access} (h : a.kind = .read) :
    ∃ w n, s.accessOffset off a = { s with busData := some w, draws := n } := by
  simp only [State.accessOffset, h]
  split
  · exact readTarget_drives s (target off)
  · exact ⟨_, _, rfl⟩

/-- Settles O56: an answered read drives a word, and only the count of draws moves with it. -/
theorem readsHaveNoSideEffects : Obligations.ReadsHaveNoSideEffects := by
  intro s t a hk h
  obtain ⟨-, -, rfl⟩ := hostAccess_cases h
  obtain ⟨w, n, hw⟩ := accessOffset_read_drives s (a.addr - s.params.base) hk
  rw [hw]
  exact ⟨w, rfl⟩

end Sys2Proof.Machine
end

section
/-! SUPPORT. The decoder and the encoder are inverse to each other, check by check; and the statements
about legal words, rows of the opcode map and illegal words. -/

namespace Sys2Proof

/-! ### What each check of the decoder passes -/

namespace Decoder

/-- A sequence of checks passes when each of them does. -/
theorem bind_eq_ok {α β : Type} {e : Except Reject α} {f : α → Except Reject β} {r : β} :
    (e >>= f) = .ok r ↔ ∃ a, e = .ok a ∧ f a = .ok r := by
  cases e <;> simp [bind, Except.bind]

theorem pure_eq_ok {α : Type} {a r : α} : (pure a : Except Reject α) = .ok r ↔ a = r := by
  simp [pure, Except.pure]

theorem noNeg_eq_ok {x : Fields} {u : Unit} : noNeg x = .ok u ↔ x.neg = 0 := by
  simp [noNeg]

theorem noMsel_eq_ok {x : Fields} {u : Unit} : noMsel x = .ok u ↔ x.msel = 0 := by
  simp [noMsel]

theorem unused_eq_ok {v : BitVec 4} {u : Unit} : unused v = .ok u ↔ v = 0 := by
  simp [unused]

theorem pt_eq_ok {v : BitVec 4} {r : PReg} : pt v = .ok r ↔ Encoder.pt r = v :=
  ⟨Encoder.pt_decode, fun h => h ▸ pt_encode r⟩

/-- MSEL holds an encoded modulus or is reserved (30_encoding.md R84). -/
theorem msel_cases (v : BitVec 2) : (∃ m, Encoder.msel m = v) ∨ v = 3 := by
  have hv : v = 0 ∨ v = 1 ∨ v = 2 ∨ v = 3 := by revert v; decide
  obtain rfl | rfl | rfl | rfl := hv
  · exact .inl ⟨.p, rfl⟩
  · exact .inl ⟨.n, rfl⟩
  · exact .inl ⟨.g, rfl⟩
  · exact .inr rfl

theorem modulus_eq_ok {x : Fields} {m : Modulus} : modulus x = .ok m ↔ Encoder.msel m = x.msel := by
  refine ⟨fun h => ?_, fun h => modulus_encode m x h.symm⟩
  obtain ⟨m', hm⟩ | hm := msel_cases x.msel
  · rw [modulus_encode m' x hm.symm] at h
    cases h
    exact hm
  · simp [modulus, hm] at h

end Decoder

/-! ### The decoder against the encoder -/

theorem Fields.eq_iff {x y : Fields} : x = y ↔ x.opc = y.opc ∧ x.msel = y.msel ∧ x.d = y.d ∧
    x.a = y.a ∧ x.b = y.b ∧ x.neg = y.neg ∧ x.rsv = y.rsv := by
  cases x; cases y; simp

theorem Fields.opc_eq {x : Fields} {n : Nat} (h : x.opc.toNat = n) : x.opc = BitVec.ofNat 6 n := by
  simp [← h]

/-- The flag the decoder reads from NEG is encoded as NEG. -/
theorem Encoder.ofBool_decode (v : BitVec 1) : BitVec.ofBool (v == 1#1) = v := by
  revert v; decide

/-- What the decoder accepts are the fields of the command it answers. By rows of the opcode map:
every check that passes says what its field holds, and those are the fields the encoder fills in. -/
theorem fields_of_decodeFields {x : Fields} {i : Instr} (h : decodeFields x = .ok i) :
    i.fields = x := by
  unfold decodeFields at h
  split at h
  · cases h
  next hrsv =>
  push Not at hrsv
  rw [Fields.eq_iff]
  split at h
  case h_18 => cases h
  all_goals
    rename_i hopc
    have hopc := Fields.opc_eq hopc
    simp only [Decoder.bind_eq_ok, Decoder.pure_eq_ok, Decoder.noNeg_eq_ok, Decoder.noMsel_eq_ok,
      Decoder.unused_eq_ok, Decoder.pt_eq_ok, Decoder.modulus_eq_ok, exists_const] at h
  case h_1 => -- NOP
    obtain ⟨hneg, hmsel, hd, ha, hb, rfl⟩ := h
    simp [Instr.fields, Encoder.blank, *]
  case h_2 | h_3 | h_4 | h_6 => -- MADD, MSUB, MMUL, MPOW
    obtain ⟨hneg, m, hm, rfl⟩ := h
    simp [Instr.fields, Encoder.blank, Encoder.f_decode, *]
  case h_5 => -- MINV
    obtain ⟨hneg, m, hm, hb, rfl⟩ := h
    simp [Instr.fields, Encoder.blank, Encoder.f_decode, *]
  case h_7 => -- FMOV
    obtain ⟨hneg, hmsel, hb, rfl⟩ := h
    simp [Instr.fields, Encoder.blank, Encoder.f_decode, *]
  case h_8 => -- PADD
    obtain ⟨hneg, hmsel, d, hd, a, ha, b, hb, rfl⟩ := h
    simp [Instr.fields, Encoder.blank, *]
  case h_9 | h_10 | h_17 => -- PDBL, PNEG, PMOV
    obtain ⟨hneg, hmsel, d, hd, a, ha, hb, rfl⟩ := h
    simp [Instr.fields, Encoder.blank, *]
  case h_11 => -- PMUL
    obtain ⟨hmsel, d, hd, a, ha, rfl⟩ := h
    simp [Instr.fields, Encoder.blank, Encoder.f_decode, Encoder.ofBool_decode, *]
  case h_12 => -- PSET
    obtain ⟨hneg, hmsel, d, hd, rfl⟩ := h
    simp [Instr.fields, Encoder.blank, Encoder.f_decode, *]
  case h_13 | h_14 => -- PINF, PLDG
    obtain ⟨hneg, hmsel, d, hd, ha, hb, rfl⟩ := h
    simp [Instr.fields, Encoder.blank, *]
  case h_15 | h_16 => -- PGETX, PGETY
    obtain ⟨hneg, hmsel, a, ha, hb, rfl⟩ := h
    simp [Instr.fields, Encoder.blank, Encoder.f_decode, *]

/-- The conditions of 30_encoding.md R86 one by one, on the numbers of the opcode map. -/
theorem Fields.legal_iff (x : Fields) : x.legal = true ↔
    (x.opc.toNat ≤ 0x06 ∨ 0x10 ≤ x.opc.toNat ∧ x.opc.toNat ≤ 0x19) ∧ x.rsv = 0 ∧
    (x.neg = 0 ∨ x.opc.toNat = 0x13) ∧ (x.msel = 0 ∨ 0x01 ≤ x.opc.toNat ∧ x.opc.toNat ≤ 0x05) ∧
    x.msel ≠ 3 ∧ fieldOk x.classes.1 x.d = true ∧ fieldOk x.classes.2.1 x.a = true ∧
    fieldOk x.classes.2.2 x.b = true := by
  simp only [legal, opcodeKnown, rsvZero, negOnlyInPmul, mselOnlyInModular, modular,
    mselNotReserved, fieldsOk, Bool.and_eq_true, Bool.or_eq_true, beq_iff_eq, bne_iff_ne,
    decide_eq_true_eq, and_assoc]

/-- The decoder accepts every legal word: on the row of its opcode each condition of 30_encoding.md
R86 is what one check asks, and no legal opcode is without a row. -/
theorem decodeFields_of_legal {x : Fields} (h : x.legal = true) : ∃ i, decodeFields x = .ok i := by
  obtain ⟨hopc, hrsv, hneg, hmsel, hres, hd, ha, hb⟩ := x.legal_iff.1 h
  obtain ⟨m, hm⟩ := (Decoder.msel_cases x.msel).resolve_right hres
  have hmodulus := Decoder.modulus_eq_ok.2 hm
  unfold decodeFields
  rw [if_neg (by simp [hrsv])]
  split
  case h_18 => lia
  all_goals
    rename_i hrow
    simp only [Fields.classes, Fields.fieldOk, hrow, beq_iff_eq, decide_eq_true_eq] at hd ha hb
    simp [hrow] at hneg hmsel
    simp [Decoder.noNeg, Decoder.noMsel, Decoder.unused, Decoder.pt, bind, Except.bind, pure,
      Except.pure, *]

/-- The fields of a command are a legal word's fields (30_encoding.md R86). -/
theorem legal_fields (i : Instr) : i.fields.legal = true := by
  cases i with
  | nop => exact Laws.Legal.nop
  | madd sel d a b => exact Laws.Legal.madd sel d a b
  | msub sel d a b => exact Laws.Legal.msub sel d a b
  | mmul sel d a b => exact Laws.Legal.mmul sel d a b
  | minv sel d a => exact Laws.Legal.minv sel d a
  | mpow sel d a b => exact Laws.Legal.mpow sel d a b
  | fmov d a => exact Laws.Legal.fmov d a
  | padd d a b => exact Laws.Legal.padd d a b
  | pdbl d a => exact Laws.Legal.pdbl d a
  | pneg d a => exact Laws.Legal.pneg d a
  | pmul neg d a b => exact Laws.Legal.pmul neg d a b
  | pset d a b => exact Laws.Legal.pset d a b
  | pinf d => exact Laws.Legal.pinf d
  | pldg d => exact Laws.Legal.pldg d
  | pgetx d a => exact Laws.Legal.pgetx d a
  | pgety d a => exact Laws.Legal.pgety d a
  | pmov d a => exact Laws.Legal.pmov d a

/-- Settles O7, by the cases of the command: on the encoder's fields every check of the decoder
passes, and each field is read as what it encodes. -/
theorem decodeOfEncodeIsIdentity : Obligations.DecodeOfEncodeIsIdentity := decode_encode

/-- Settles O8: the word's fields are those of the command it decodes to, and no bit of a word is
outside its fields. -/
theorem decodedWordIsItsEncoding : Obligations.DecodedWordIsItsEncoding := by
  intro w i h
  rw [encode, fields_of_decodeFields h, Fields.toWord_ofWord]

/-- Settles O9: a word that decodes has the fields of a command, which are legal; and on a legal word
every check passes. -/
theorem decoderAcceptsExactlyLegalWords : Obligations.DecoderAcceptsExactlyLegalWords := by
  intro w
  refine ⟨?_, decodeFields_of_legal⟩
  rintro ⟨i, h⟩
  rw [← fields_of_decodeFields h]
  exact legal_fields i

/-! ### The rows of the opcode map -/

/-- A mask takes each field of a word by itself. -/
theorem Fields.ofWord_and (v w : Word32) : Fields.ofWord (v &&& w) =
    { opc := (ofWord v).opc &&& (ofWord w).opc
      msel := (ofWord v).msel &&& (ofWord w).msel
      d := (ofWord v).d &&& (ofWord w).d
      a := (ofWord v).a &&& (ofWord w).a
      b := (ofWord v).b &&& (ofWord w).b
      neg := (ofWord v).neg &&& (ofWord w).neg
      rsv := (ofWord v).rsv &&& (ofWord w).rsv } := by
  simp [Fields.ofWord, BitVec.extractLsb'_and]

theorem Fields.ofWord_inj {v w : Word32} : Fields.ofWord v = Fields.ofWord w ↔ v = w :=
  (Function.LeftInverse.injective Fields.toWord_ofWord).eq_iff

/-- Bit 3 of a PT register's field is 0 (30_encoding.md R81). -/
theorem Encoder.pt_and_eight (r : PReg) : Encoder.pt r &&& 8#4 = 0#4 := by
  revert r; decide

/-- The word of a command has the fixed bits of its row (30_encoding.md R85), field by field. -/
theorem encode_and_mask (i : Instr) : encode i &&& i.row.mask = i.row.pattern := by
  rw [← Fields.ofWord_inj, Fields.ofWord_and, encode, Fields.ofWord_toWord]
  cases i <;> simp only [Instr.row, Instr.fields, Encoder.blank, Fields.ofWord] <;>
    simp [Encoder.pt_and_eight]

/-- A word that matches a row has the row's opcode: every row fixes all six bits of OPC. -/
theorem opc_of_matches {w : Word32} {j : Instr} (h : w &&& j.row.mask = j.row.pattern) :
    (Fields.ofWord w).opc = j.fields.opc := by
  have hmask : (Fields.ofWord j.row.mask).opc = BitVec.allOnes 6 := by
    cases j <;> simp only [Instr.row] <;> decide
  have hpattern : (Fields.ofWord j.row.pattern).opc = j.fields.opc := by cases j <;> rfl
  calc (Fields.ofWord w).opc
      = (Fields.ofWord w).opc &&& BitVec.allOnes 6 := BitVec.and_allOnes.symm
    _ = (Fields.ofWord (w &&& j.row.mask)).opc := by rw [Fields.ofWord_and, hmask]
    _ = j.fields.opc := by rw [h, hpattern]

/-- One command of the row with a given opcode; NOP where the opcode is 0 or reserved. -/
def Instr.ofOpcode (opc : BitVec 6) : Instr :=
  match opc.toNat with
  | 0x01 => .madd .p 0 0 0
  | 0x02 => .msub .p 0 0 0
  | 0x03 => .mmul .p 0 0 0
  | 0x04 => .minv .p 0 0
  | 0x05 => .mpow .p 0 0 0
  | 0x06 => .fmov 0 0
  | 0x10 => .padd 0 0 0
  | 0x11 => .pdbl 0 0
  | 0x12 => .pneg 0 0
  | 0x13 => .pmul false 0 0 0
  | 0x14 => .pset 0 0 0
  | 0x15 => .pinf 0
  | 0x16 => .pldg 0
  | 0x17 => .pgetx 0 0
  | 0x18 => .pgety 0 0
  | 0x19 => .pmov 0 0
  | _ => .nop

theorem Instr.row_ofOpcode (i : Instr) : (Instr.ofOpcode i.fields.opc).row = i.row := by
  cases i <;> rfl

/-- The opcode alone tells the row. -/
theorem row_eq_of_opc {i j : Instr} (h : j.fields.opc = i.fields.opc) : j.row = i.row := by
  rw [← j.row_ofOpcode, h, i.row_ofOpcode]

/-- Settles O10: the word is its command's encoding, which matches its row; and any row it matches
has its opcode. -/
theorem decodedWordMatchesItsRowAlone : Obligations.DecodedWordMatchesItsRowAlone := by
  intro w i j h
  obtain rfl := decodedWordIsItsEncoding w i h
  refine ⟨encode_and_mask i, fun hj => row_eq_of_opc ?_⟩
  rw [← opc_of_matches hj, opc_of_matches (encode_and_mask i)]

/-- Settles O6: the decoder evaluated on eight fixed words. -/
theorem wordsOfTheOpcodeMapDecode : Obligations.WordsOfTheOpcodeMapDecode := by
  unfold Obligations.WordsOfTheOpcodeMapDecode
  decide

end Sys2Proof

namespace Sys2Proof.Machine

theorem endedFault_takeFault (s : State) (c : FaultCode) : EndedFault s (s.takeFault c) c :=
  ⟨rfl, rfl, rfl, rfl, rfl, rfl, rfl, sameControl_takeFault s c⟩

/-- Settles O11: the decoder rejects what is illegal, and the sequencer answers a rejected word with
the fault alone. -/
theorem illegalWordFaultsAndWritesNothing : Obligations.IllegalWordFaultsAndWritesNothing := by
  intro s hb hill
  cases hd : decode s.latched with
  | ok i => simp [(decoderAcceptsExactlyLegalWords _).1 ⟨i, hd⟩] at hill
  | error e => exact ⟨_, sequencerTurn_of_illegal hb hd, endedFault_takeFault s .illegal⟩

end Sys2Proof.Machine
end

section
/-! SUPPORT. The checks of LOCK and of the modulus, said once for every command that has them; the
words that are illegal by a field their row does not use; and the statements about the modular
commands and the register copy. -/

namespace Sys2Proof

/-! ### What a legal word's fields hold -/

/-- RSV and NEG are 0 and MSEL is not reserved in every legal word but PMUL's (30_encoding.md
R86). -/
theorem Fields.common_of_legal {x : Fields} (h : x.legal = true) (hopc : x.opc.toNat ≠ 0x13) :
    x.msel ≠ 3 ∧ x.neg = 0 ∧ x.rsv = 0 := by
  obtain ⟨-, hrsv, hneg, -, hres, -⟩ := x.legal_iff.1 h
  exact ⟨hres, hneg.resolve_right hopc, hrsv⟩

/-- MSEL is 0 in a legal word that is not modular (30_encoding.md R86). -/
theorem Fields.msel_of_legal {x : Fields} (h : x.legal = true) (hopc : x.modular = false) :
    x.msel = 0 := by
  obtain ⟨-, -, -, hmsel, -⟩ := x.legal_iff.1 h
  exact hmsel.resolve_right (by simpa [modular] using hopc)

/-- B is 0 in a legal word whose row does not use it (30_encoding.md R86). -/
theorem Fields.b_of_legal {x : Fields} (h : x.legal = true) (hb : x.classes.2.2 = .unused) :
    x.b = 0 := by
  obtain ⟨-, -, -, -, -, -, -, hok⟩ := x.legal_iff.1 h
  simpa [hb, fieldOk] using hok

end Sys2Proof

namespace Sys2Proof.Machine

theorem opcode_eq (i : Instr) : opcode i = i.fields.opc := by
  rw [opcode, encode, Fields.ofWord_toWord]

/-- What no legal word satisfies ends with E_ILLEGAL. -/
theorem illegalWhen_of_not_legal {P : Fields → Prop} (h : ∀ x, x.legal = true → ¬ P x) :
    IllegalWhen P := fun s hb hP =>
  illegalWordFaultsAndWritesNothing s hb (Bool.eq_false_iff.2 fun hl => h _ hl hP)

/-- The fields that are wrong in every command but PMUL (30_encoding.md R86). -/
theorem illegalWhen_opc_of_common {opc : BitVec 6} (hopc : opc.toNat ≠ 0x13) :
    IllegalWhen fun x => x.opc = opc ∧ (x.msel = 3 ∨ x.neg ≠ 0 ∨ x.rsv ≠ 0) := by
  refine illegalWhen_of_not_legal fun x hx ⟨ho, hbad⟩ => ?_
  obtain ⟨hmsel, hneg, hrsv⟩ := Fields.common_of_legal hx (ho ▸ hopc)
  tauto

/-! ### The checks of LOCK and of the modulus -/

/-- A command with a modulus needs the lock exactly when its modulus does (30_encoding.md R87). -/
theorem lockNeeded_of_modulusNeeded {i : Instr} {sel : Modulus} (h : modulusNeeded i = some sel) :
    lockNeeded i = needsLock sel := by
  cases i <;> cases h
  case madd | msub | mmul | minv | mpow => cases sel <;> rfl
  all_goals rfl

/-- The checks let a ready command have its modulus. -/
theorem Ready.checkedModulus {i : Instr} {s : State} {sel : Modulus} (h : Ready i s)
    (hi : modulusNeeded i = some sel) : s.checkedModulus sel = .ok (s.modulus sel) := by
  refine checkedModulus_ok (fun hg => h.lock ?_) (h.modulus sel hi)
  rw [lockNeeded_of_modulusNeeded hi]
  cases sel <;> simp_all [needsLock]

theorem Ready.modulus_pos {i : Instr} {s : State} {sel : Modulus} (h : Ready i s)
    (hi : modulusNeeded i = some sel) : 0 < s.modulus sel :=
  Nat.zero_lt_of_lt (h.modulus sel hi)

/-- A command with a modulus ends with the fault of its checks, before it looks at its operands
(30_encoding.md R87). -/
theorem exec_of_checkedModulus_error {i : Instr} {s : State} {sel : Modulus} {c : FaultCode}
    (hi : modulusNeeded i = some sel) (h : s.checkedModulus sel = .error c) :
    exec i s = .next (s.takeFault c) := by
  cases i <;> cases hi
  case madd | msub | mmul | minv | mpow =>
    simp only [exec, execMadd, execMsub, execMmul, execMinv, execMpow, h]; rfl
  case padd | pdbl | pneg | pmul =>
    simp only [exec, execPadd, execPdbl, execPneg, execPmul, checkedPrime_eq, h]; rfl

/-- PLDG alone reads a curve constant and has no modulus (41_point.md R129). -/
theorem eq_pldg_of_lockNeeded {i : Instr} (hl : lockNeeded i = true) (hi : modulusNeeded i = none) :
    ∃ d, i = .pldg d := by
  cases i with
  | pldg d => exact ⟨d, rfl⟩
  | nop | fmov | pset | pinf | pgetx | pgety | pmov => cases hl
  | _ => cases hi

/-- Every command that needs the lock faults with E_CFG without it (60_exceptions.md R181). -/
theorem lockFault (i : Instr) (s : State) : LockFault i s := by
  intro hl hlock
  apply faultsWith_of_next
  cases hi : modulusNeeded i with
  | some sel =>
    refine exec_of_checkedModulus_error hi ?_
    simp [State.checkedModulus, ← lockNeeded_of_modulusNeeded hi, hl, hlock]
  | none =>
    obtain ⟨d, rfl⟩ := eq_pldg_of_lockNeeded hl hi
    simp only [exec, execPldg, State.checkedLock, hlock]
    rfl

/-- Every command with a modulus below 2 faults with E_MOD once the lock is as it needs it
(30_encoding.md R87). -/
theorem modulusFault (i : Instr) (s : State) : ModulusFault i s := by
  intro sel hi hl hm
  apply faultsWith_of_next
  refine exec_of_checkedModulus_error hi ?_
  rw [lockNeeded_of_modulusNeeded hi] at hl
  cases hn : needsLock sel <;> simp_all [State.checkedModulus]

/-- Commands with the same checks are ready in states with the same lock and moduli. -/
theorem Ready.congr {i j : Instr} {s t : State} (h : Ready i s) (hl : lockNeeded j = lockNeeded i)
    (hm : modulusNeeded j = modulusNeeded i) (hctrl : t.ctrl = s.ctrl)
    (hmod : t.modulus = s.modulus) : Ready j t :=
  ⟨by rw [hl, hctrl]; exact h.lock, by rw [hm, hmod]; exact h.modulus⟩

/-! ### Values of a command that fit -/

/-- Every modulus is the contents of an operand register. -/
theorem State.DataInv.modulus_lt {s : State} (h : s.DataInv) (sel : Modulus) :
    s.modulus sel < 2 ^ s.params.width := by
  cases sel with
  | p => exact h.fits (.const .cp)
  | n => exact h.fits (.const .cn)
  | g => exact h.fits .mg

/-- A command that finishes a canonical value completes with it. -/
theorem completesF_of_lt_modulus {i : Instr} {s : State} {d : FReg} {v : Nat} {sel : Modulus}
    (hs : s.DataInv) (h : exec i s = s.finishF d (.ok v)) (hv : v < s.modulus sel) :
    CompletesF i s d v :=
  completesF_of_finish h (hv.trans (hs.modulus_lt sel))

/-- Every command keeps the data registers within their bounds. -/
theorem State.DataInv.exec {i : Instr} {s t : State} (h : s.DataInv) (he : exec i s = .next t) :
    t.DataInv := by
  rcases exec_cases he with ⟨c, -, rfl⟩ | ⟨-, rfl⟩ | ⟨d, v, -, rfl⟩ | ⟨d, P, -, rfl⟩
  · exact h.congr rfl rfl rfl rfl rfl
  · exact h.congr rfl rfl rfl rfl rfl
  · exact (h.writeF d v).congr rfl rfl rfl rfl rfl
  · exact (h.writePt d P).congr rfl rfl rfl rfl rfl

/-! ### The modular commands -/

section
variable {s : State} {sel : Modulus} {d a b : FReg}

theorem exec_madd_of_ready (h : Ready (.madd sel d a b) s) : exec (.madd sel d a b) s =
    s.finishF d (.ok ((s.readF a + s.readF b) % s.modulus sel)) := by
  simp only [exec, execMadd, h.checkedModulus rfl, Except.map, ← Nat.cast_add, residue_natCast]

theorem exec_msub_of_ready (h : Ready (.msub sel d a b) s) : exec (.msub sel d a b) s =
    s.finishF d (.ok (residue ((s.readF a : Int) - s.readF b) (s.modulus sel))) := by
  simp only [exec, execMsub, h.checkedModulus rfl, Except.map]

theorem exec_mmul_of_ready (h : Ready (.mmul sel d a b) s) : exec (.mmul sel d a b) s =
    s.finishF d (.ok (s.readF a * s.readF b % s.modulus sel)) := by
  simp only [exec, execMmul, h.checkedModulus rfl, Except.map, ← Nat.cast_mul, residue_natCast]

theorem exec_minv_of_ready (h : Ready (.minv sel d a) s) :
    exec (.minv sel d a) s = s.finishF d (inv (s.readF a) (s.modulus sel)) := by
  simp only [exec, execMinv, h.checkedModulus rfl, Except.bind]

theorem exec_mpow_of_ready (h : Ready (.mpow sel d a b) s) : exec (.mpow sel d a b) s =
    s.finishF d (.ok (s.readF a ^ s.readF b % s.modulus sel)) := by
  simp only [exec, execMpow, h.checkedModulus rfl, Except.map, powMod_eq _ _ (h.modulus sel rfl)]

/-- A ready MPOW completes with the power (40_modular.md R105). -/
theorem completesF_mpow (hs : s.DataInv) (h : Ready (.mpow sel d a b) s) :
    CompletesF (.mpow sel d a b) s d (s.readF a ^ s.readF b % s.modulus sel) :=
  completesF_of_lt_modulus hs (exec_mpow_of_ready h)
    (Nat.mod_lt _ (h.modulus_pos rfl))

end

/-- Settles O13: the residue of a sum of natural numbers is its remainder, which fits. -/
theorem maddAddsModulo : Obligations.MaddAddsModulo := by
  refine ⟨fun s sel d a b hs => ⟨opcode_eq _, fun hr => ?_, lockFault _ _, modulusFault _ _⟩,
    illegalWhen_opc_of_common (by decide)⟩
  exact completesF_of_lt_modulus hs.dataInv (exec_madd_of_ready hr)
    (Nat.mod_lt _ (hr.modulus_pos rfl))

/-- Settles O14: the residue of the signed difference, which is the remainder where nothing is
borrowed. -/
theorem msubSubtractsModulo : Obligations.MsubSubtractsModulo := by
  refine ⟨fun s sel d a b hs => ⟨opcode_eq _, fun hr => ?_, lockFault _ _, modulusFault _ _⟩,
    illegalWhen_opc_of_common (by decide)⟩
  have hm : 0 < s.modulus sel := hr.modulus_pos rfl
  refine ⟨_, residue_lt _ hm, residue_modEq _ hm, fun hle => ?_,
    completesF_of_lt_modulus hs.dataInv (exec_msub_of_ready hr) (residue_lt _ hm)⟩
  rw [← Nat.cast_sub hle, residue_natCast]

/-- Settles O15: the residue of a product of natural numbers is its remainder, which fits. -/
theorem mmulMultipliesModulo : Obligations.MmulMultipliesModulo := by
  refine ⟨fun s sel d a b hs => ⟨opcode_eq _, fun hr => ?_, lockFault _ _, modulusFault _ _⟩,
    illegalWhen_opc_of_common (by decide)⟩
  exact completesF_of_lt_modulus hs.dataInv (exec_mmul_of_ready hr)
    (Nat.mod_lt _ (hr.modulus_pos rfl))

/-- The product that 00_scope.md R12 asks of an inverse, as a congruence of the raw operand. -/
theorem mod_mul_mod_eq_one_iff {v r m : Nat} (hm : 2 ≤ m) :
    v % m * r % m = 1 ↔ (v : Int) * r ≡ 1 [ZMOD m] := by
  rw [Nat.mod_mul_mod, ← Nat.cast_mul, ← Nat.cast_one (R := Int), Int.natCast_modEq_iff, Nat.ModEq,
    Nat.mod_eq_of_lt (show 1 < m by omega)]

/-- Settles O16: Inv answers an inverse exactly where there is no common factor, and an inverse
below the modulus is the only one. -/
theorem minvInvertsOrFaults : Obligations.MinvInvertsOrFaults := by
  refine ⟨fun s sel d a hs => ⟨opcode_eq _, fun hr hg => ?_, fun hr hg => ?_, lockFault _ _,
    modulusFault _ _⟩, illegalWhen_of_not_legal fun x hx ⟨hopc, hbad⟩ => ?_⟩
  · have hm : 2 ≤ s.modulus sel := hr.modulus sel rfl
    obtain ⟨r, hinv, hlt, hmul⟩ := inv_ok (v := s.readF a) hm (by rwa [residue_natCast])
    refine ⟨r, hlt, (mod_mul_mod_eq_one_iff hm).2 hmul, fun r' hlt' hmul' => ?_,
      completesF_of_lt_modulus hs.dataInv (by rw [exec_minv_of_ready hr, hinv]) hlt⟩
    have heq := inverse_unique ((mod_mul_mod_eq_one_iff hm).1 hmul') hmul
    exact (Int.natCast_modEq_iff.1 heq).eq_of_lt_of_lt hlt' hlt
  · refine faultsWith_of_next ?_
    rw [exec_minv_of_ready hr, inv_error (by rwa [residue_natCast])]
    rfl
  · obtain ⟨hmsel, hneg, hrsv⟩ := Fields.common_of_legal hx (by simp [hopc])
    have hb : x.b = 0 := Fields.b_of_legal hx (by simp [Fields.classes, hopc])
    tauto

/-- Settles O17: square and multiply computes the power with the raw exponent. -/
theorem mpowRaisesToThePower : Obligations.MpowRaisesToThePower :=
  ⟨fun _ _ _ _ _ hs => ⟨opcode_eq _, completesF_mpow hs.dataInv, lockFault _ _, modulusFault _ _⟩,
    illegalWhen_opc_of_common (by decide)⟩

/-- Settles O18: the contents of a register fit a register, and FMOV looks at no check. -/
theorem fmovCopiesRaw : Obligations.FmovCopiesRaw := by
  refine ⟨fun s d a hs => ⟨opcode_eq _, completesF_of_finish rfl (hs.fits (.f a))⟩,
    illegalWhen_of_not_legal fun x hx ⟨hopc, hbad⟩ => ?_⟩
  obtain ⟨-, hneg, hrsv⟩ := Fields.common_of_legal hx (by simp [hopc])
  have hmsel : x.msel = 0 := Fields.msel_of_legal hx (by simp [Fields.modular, hopc])
  have hb : x.b = 0 := Fields.b_of_legal hx (by simp [Fields.classes, hopc])
  tauto

/-! ### Two exponents -/

/-- No command changes a modulus (43_system.md R171). -/
theorem modulus_of_exec {i : Instr} {s t : State} (h : exec i s = .next t) :
    t.modulus = s.modulus := by
  obtain ⟨-, hconsts, hmg⟩ := exec_keeps h
  funext sel
  cases sel <;> simp [State.modulus, hconsts, hmg]

/-- After an MPOW into a register other than F0: the power stands there, the other registers are as
before, and any MPOW with the same modulus is ready. -/
theorem exec_mpow_next {s t : State} {sel : Modulus} {d a b : FReg} (hs : s.DataInv)
    (hr : Ready (.mpow sel d a b) s) (hd : d ≠ 0) (he : exec (.mpow sel d a b) s = .next t) :
    t.DataInv ∧ t.modulus = s.modulus ∧ t.readF d = s.readF a ^ s.readF b % s.modulus sel ∧
      (∀ j, j ≠ d → t.readF j = s.readF j) ∧ ∀ d' a' b', Ready (.mpow sel d' a' b') t := by
  obtain ⟨t', he', hdest, hother, -, -, -, hcontrol, -⟩ := completesF_mpow hs hr
  obtain rfl : t' = t := by simpa [he] using he'.symm
  have hmod := modulus_of_exec he
  exact ⟨hs.exec he, hmod, by simpa [hd] using hdest, hother,
    fun _ _ _ => hr.congr rfl rfl hcontrol.ctrl hmod⟩

/-- Settles O19: each of the four MPOWs leaves the operands of the next as they were, and both
registers hold the power to the product of the exponents. -/
theorem mpowExponentsCommute : Obligations.MpowExponentsCommute := by
  intro s t u sel g a b x y hs hr hx hy hxa hxb hya hyb hxy hgx ht hu
  obtain ⟨htInv, htMod, htx, htOther, htReady⟩ := exec_mpow_next hs.dataInv hr hx ht
  obtain ⟨huInv, huMod, huy, huOther, huReady⟩ := exec_mpow_next htInv (htReady y g b) hy hu
  obtain ⟨v, hv⟩ := exec_answers (.mpow sel x x b) u
  obtain ⟨hvInv, hvMod, hvx, hvOther, hvReady⟩ := exec_mpow_next huInv (huReady x x b) hx hv
  obtain ⟨w, hw⟩ := exec_answers (.mpow sel y y a) v
  obtain ⟨-, -, hwy, hwOther, -⟩ := exec_mpow_next hvInv (hvReady y y a) hy hw
  have hb : u.readF b = s.readF b := by rw [huOther b hyb.symm, htOther b hxb.symm]
  have ha : v.readF a = s.readF a := by
    rw [hvOther a hxa.symm, huOther a hya.symm, htOther a hxa.symm]
  have hfirst : w.readF x = s.readF g ^ (s.readF a * s.readF b) % s.modulus sel := by
    rw [hwOther x hxy, hvx, huOther x hxy, htx, hb, huMod, htMod, ← Nat.pow_mod, ← pow_mul]
  have hsecond : w.readF y = s.readF g ^ (s.readF b * s.readF a) % s.modulus sel := by
    rw [hwy, hvOther y hxy.symm, huy, ha, htOther g hgx, htOther b hxb.symm, hvMod, huMod, htMod,
      ← Nat.pow_mod, ← pow_mul]
  exact ⟨v, w, hv, hw, by rw [hfirst, hsecond, mul_comm], hfirst⟩

end Sys2Proof.Machine
end

section
/-! SUPPORT. The adder as lines through points: the third point of a line by its slope, which the
congruences of 41_point.md R121 determine. -/

namespace Sys2Proof.Machine

/-! ### Congruences determine canonical values -/

/-- Congruent canonical values are equal. -/
theorem eq_of_modEq_of_lt {p x y : Nat} (h : (x : Int) ≡ y [ZMOD p]) (hx : x < p) (hy : y < p) :
    x = y :=
  (Int.natCast_modEq_iff.1 h).eq_of_lt_of_lt hx hy

/-- The common factor that Inv looks for, on the integer it is given (00_scope.md R12). -/
theorem gcd_residue (v : Int) {m : Nat} (hm : 0 < m) : Nat.gcd (residue v m) m = Int.gcd v m := by
  rw [← Int.gcd_natCast_natCast, residue_cast v hm, Int.gcd_emod]

/-- One slope only has a given quotient with an invertible denominator. -/
theorem Slope.unique {p lam lam' : Nat} {num den : Int} (hg : Int.gcd den p = 1)
    (h : Slope p num den lam) (h' : Slope p num den lam') : lam = lam' := by
  have hp : (0 : Int) < p := Int.natCast_pos.2 (Nat.zero_lt_of_lt h.lamLt)
  have hcancel := (h.quotient.trans h'.quotient.symm).cancel_right_div_gcd hp
  rw [Int.gcd_comm, hg, Nat.cast_one, Int.ediv_one] at hcancel
  exact eq_of_modEq_of_lt hcancel h.lamLt h'.lamLt

/-- One point only lies on the line of a given slope in the way of 41_point.md R121. -/
theorem OnSlope.unique {p x1 y1 x2 lam x y x' y' : Nat} (h : OnSlope p x1 y1 x2 lam x y)
    (h' : OnSlope p x1 y1 x2 lam x' y') : x = x' ∧ y = y' := by
  obtain rfl : x = x' := eq_of_modEq_of_lt (h.xEq.trans h'.xEq.symm) h.xLt h'.xLt
  exact ⟨rfl, eq_of_modEq_of_lt (h.yEq.trans h'.yEq.symm) h.yLt h'.yLt⟩

/-- The last lines of Add compute the third point on the line (41_point.md R121). -/
theorem chord_onSlope (p x1 y1 x2 lam : Nat) (hp : 0 < p) :
    ∃ x y, chord p x1 y1 x2 lam = .affine x y ∧ OnSlope p x1 y1 x2 lam x y :=
  ⟨_, _, rfl, residue_lt _ hp, residue_lt _ hp, residue_modEq _ hp, residue_modEq _ hp⟩

/-! ### The third point of a line -/

/-- The third point of the line of slope num / den through (x1, y1) and a point with x = x2, or the
fault of the division: what both branches of Add that divide compute (41_point.md R121). -/
def thirdPoint (p x1 y1 x2 : Nat) (num den : Int) : Except FaultCode Point :=
  (inv den p).map fun v : Nat => chord p x1 y1 x2 (residue (num * v) p)

section
variable {p : Nat} {num den : Int}

theorem thirdPoint_of_gcd_ne_one (x1 y1 x2 : Nat) (hp : 0 < p) (hg : Int.gcd den p ≠ 1) :
    thirdPoint p x1 y1 x2 num den = .error .invZero := by
  rw [thirdPoint, inv_error (by rwa [gcd_residue _ hp])]
  rfl

theorem thirdPoint_of_gcd_eq_one (x1 y1 x2 : Nat) (hp : 2 ≤ p) (hg : Int.gcd den p = 1) :
    ∃ lam x y, Slope p num den lam ∧ OnSlope p x1 y1 x2 lam x y ∧
      thirdPoint p x1 y1 x2 num den = .ok (.affine x y) := by
  have hp0 : 0 < p := by omega
  obtain ⟨v, hv, -, hmul⟩ := inv_ok hp ((gcd_residue den hp0).trans hg)
  obtain ⟨x, y, hchord, hxy⟩ := chord_onSlope p x1 y1 x2 (residue (num * v) p) hp0
  refine ⟨residue (num * v) p, x, y, ⟨residue_lt _ hp0, ?_⟩, hxy, ?_⟩
  · calc (residue (num * v) p : Int) * den
        ≡ num * v * den [ZMOD p] := (residue_modEq _ hp0).mul_right _
      _ = num * (den * v) := by ring
      _ ≡ num [ZMOD p] := by simpa using hmul.mul_left num
  · rw [thirdPoint, hv, ← hchord]
    rfl

/-- The congruences of 41_point.md R121 are all there is to say of the third point. -/
theorem thirdPoint_eq {x1 y1 x2 lam x y : Nat} (hp : 2 ≤ p) (hg : Int.gcd den p = 1)
    (hslope : Slope p num den lam) (hxy : OnSlope p x1 y1 x2 lam x y) :
    thirdPoint p x1 y1 x2 num den = .ok (.affine x y) := by
  obtain ⟨lam', x', y', hslope', hxy', h⟩ := thirdPoint_of_gcd_eq_one x1 y1 x2 hp hg
  obtain rfl := hslope.unique hg hslope'
  obtain ⟨rfl, rfl⟩ := hxy.unique hxy'
  exact h

end

/-! ### The branches of Add -/

section
variable {p a x1 y1 x2 y2 : Nat}

theorem pointAdd_of_opposite (hx : x1 = x2) (hy : (y1 + y2) % p = 0) :
    pointAdd p a (.affine x1 y1) (.affine x2 y2) = .ok .inf := by
  rw [pointAdd_affine, if_pos ⟨hx, hy⟩]

/-- Equal raw points that are not their own opposite take the tangent; their y is not 0, so the
branch of 41_point.md R121 that asks for it is never reached. -/
theorem pointAdd_of_eq (hx : x1 = x2) (hy : y1 = y2) (hne : (y1 + y2) % p ≠ 0) :
    pointAdd p a (.affine x1 y1) (.affine x2 y2) =
      thirdPoint p x1 y1 x2 (3 * x1 * x1 + a) (2 * y1) := by
  have hy0 : y1 ≠ 0 := by
    rintro rfl
    simp [← hy] at hne
  rw [pointAdd_affine, if_neg (fun h => hne h.2), if_pos ⟨hx, hy⟩, if_neg hy0]
  rfl

theorem pointAdd_of_ne (hopp : ¬ (x1 = x2 ∧ (y1 + y2) % p = 0)) (hne : ¬ (x1 = x2 ∧ y1 = y2)) :
    pointAdd p a (.affine x1 y1) (.affine x2 y2) =
      thirdPoint p x1 y1 x2 ((y2 : Int) - y1) ((x2 : Int) - x1) := by
  rw [pointAdd_affine, if_neg hopp, if_neg hne]
  rfl

end

/-! ### Commutativity -/

section
variable {p x1 y1 x2 y2 lam : Nat}

/-- The chord's slope is the same from either end. -/
theorem Slope.swap (h : Slope p ((y2 : Int) - y1) ((x2 : Int) - x1) lam) :
    Slope p ((y1 : Int) - y2) ((x1 : Int) - x2) lam :=
  ⟨h.lamLt, by simpa only [← mul_neg, neg_sub] using h.quotient.neg⟩

/-- The chord's third point is the same from either end. -/
theorem OnSlope.swap {x y : Nat} (hlam : Slope p ((y2 : Int) - y1) ((x2 : Int) - x1) lam)
    (h : OnSlope p x1 y1 x2 lam x y) : OnSlope p x2 y2 x1 lam x y := by
  refine ⟨h.xLt, h.yLt, by rw [sub_right_comm]; exact h.xEq, ?_⟩
  calc (y : Int) ≡ lam * (x1 - x) - y1 [ZMOD p] := h.yEq
    _ = lam * (x2 - x) - y2 - (lam * (x2 - x1) - (y2 - y1)) := by ring
    _ ≡ lam * (x2 - x) - y2 - ((y2 - y1) - (y2 - y1)) [ZMOD p] :=
      (hlam.quotient.sub_right _).sub_left _
    _ = lam * (x2 - x) - y2 := by ring

theorem thirdPoint_swap (hp : 2 ≤ p) :
    thirdPoint p x1 y1 x2 ((y2 : Int) - y1) ((x2 : Int) - x1) =
      thirdPoint p x2 y2 x1 ((y1 : Int) - y2) ((x1 : Int) - x2) := by
  have hgcd : Int.gcd ((x1 : Int) - x2) p = Int.gcd ((x2 : Int) - x1) p := by
    rw [← neg_sub, Int.neg_gcd]
  by_cases hg : Int.gcd ((x2 : Int) - x1) p = 1
  · obtain ⟨lam, x, y, hlam, hxy, h⟩ :=
      thirdPoint_of_gcd_eq_one (num := (y2 : Int) - y1) x1 y1 x2 hp hg
    rw [h, thirdPoint_eq hp (hgcd.trans hg) hlam.swap (hxy.swap hlam)]
  · have hp0 : 0 < p := by omega
    rw [thirdPoint_of_gcd_ne_one _ _ _ hp0 hg, thirdPoint_of_gcd_ne_one _ _ _ hp0 (by rwa [hgcd])]

end

/-- Add commutes on every pair of operands, raw and off-curve ones too (41_point.md R124 (d)). -/
theorem pointAdd_comm {p : Nat} (hp : 2 ≤ p) (a : Nat) (P Q : Point) :
    pointAdd p a P Q = pointAdd p a Q P := by
  cases P with
  | inf => simp
  | affine x1 y1 =>
    cases Q with
    | inf => simp
    | affine x2 y2 =>
      by_cases hopp : x1 = x2 ∧ (y1 + y2) % p = 0
      · rw [pointAdd_of_opposite hopp.1 hopp.2,
          pointAdd_of_opposite hopp.1.symm (by rw [add_comm]; exact hopp.2)]
      · by_cases heq : x1 = x2 ∧ y1 = y2
        · rw [heq.1, heq.2]
        · have hopp' : ¬ (x2 = x1 ∧ (y2 + y1) % p = 0) := by rwa [eq_comm, add_comm]
          have heq' : ¬ (x2 = x1 ∧ y2 = y1) := by rwa [eq_comm, eq_comm (a := y2)]
          rw [pointAdd_of_ne hopp heq, pointAdd_of_ne hopp' heq', thirdPoint_swap hp]

/-- Settles O36: with a modulus of at least 2 Add commutes, and below 2 the checks end both
commands alike. -/
theorem paddCommutes : Obligations.PaddCommutes := by
  intro s d a b
  simp only [exec, execPadd, checkedPrime_eq]
  rcases checkedModulus_cases s .p with ⟨h, -⟩ | ⟨h, -⟩ | ⟨h, -, hp⟩
  · simp only [h, Except.bind]
  · simp only [h, Except.bind]
  · simp only [h, Except.bind, pointAdd_comm hp _ (s.readPt a)]

end Sys2Proof.Machine
end

section
/-! SUPPORT. The point commands but for PMUL: the words of their rows that are illegal, the point
values they read and write, and the statements about each of them. -/

namespace Sys2Proof

/-- A legal word that is neither PMUL's nor modular is its opcode and its three register fields
(30_encoding.md R86). -/
theorem Fields.eq_of_legal {x : Fields} (h : x.legal = true) (hopc : x.opc.toNat ≠ 0x13)
    (hmod : x.modular = false) : x = ⟨x.opc, 0, x.d, x.a, x.b, 0, 0⟩ := by
  obtain ⟨-, hneg, hrsv⟩ := Fields.common_of_legal h hopc
  exact Fields.eq_iff.2 ⟨rfl, Fields.msel_of_legal h hmod, rfl, rfl, rfl, hneg, hrsv⟩

end Sys2Proof

namespace Sys2Proof.Machine

/-! ### Illegal words of a row -/

/-- In a row that is neither PMUL's nor modular, a word ends with E_ILLEGAL by any condition that no
register fields of the row's classes meet with all other fields 0 (30_encoding.md R86). -/
theorem illegalWhen_opc {opc : BitVec 6} {P : Fields → Prop} (hopc : opc.toNat ≠ 0x13)
    (hmod : (Encoder.blank opc).modular = false)
    (hP : ∀ d a b, Fields.fieldOk (Encoder.blank opc).classes.1 d = true →
      Fields.fieldOk (Encoder.blank opc).classes.2.1 a = true →
      Fields.fieldOk (Encoder.blank opc).classes.2.2 b = true → ¬ P ⟨opc, 0, d, a, b, 0, 0⟩) :
    IllegalWhen fun x => x.opc = opc ∧ P x := by
  refine illegalWhen_of_not_legal fun x hx ⟨ho, hbad⟩ => ?_
  subst ho
  obtain ⟨-, -, -, -, -, hd, ha, hb⟩ := x.legal_iff.1 hx
  rw [Fields.eq_of_legal hx hopc hmod] at hbad
  exact hP x.d x.a x.b hd ha hb hbad

/-! ### Points that are read and written -/

/-- The coordinates read from a point register fit a register (10_state.md R23). -/
theorem State.DataInv.readPt_lt {s : State} (h : s.DataInv) {i : PReg} {x y : Nat}
    (hP : s.readPt i = .affine x y) : x < 2 ^ s.params.width ∧ y < 2 ^ s.params.width := by
  simp only [State.readPt, PtReg.point] at hP
  split at hP
  · cases hP
  · obtain ⟨rfl, rfl⟩ := Point.affine.inj hP
    exact ⟨h.fits (.ptx i), h.fits (.pty i)⟩

/-- A command whose point computation faults ends with that fault. -/
theorem faultsWith_of_finishPt {i : Instr} {s : State} {d : PReg} {c : FaultCode}
    (h : exec i s = s.finishPt d (.error c)) : FaultsWith i s c := faultsWith_of_next h

theorem completesPt_inf {i : Instr} {s : State} {d : PReg}
    (h : exec i s = s.finishPt d (.ok .inf)) : CompletesPt i s d .inf :=
  completesPt_of_finish h nofun

theorem completesPt_affine {i : Instr} {s : State} {d : PReg} {x y : Nat}
    (h : exec i s = s.finishPt d (.ok (.affine x y))) (hx : x < 2 ^ s.params.width)
    (hy : y < 2 ^ s.params.width) : CompletesPt i s d (.affine x y) :=
  completesPt_of_finish h fun _ _ e => by
    obtain ⟨rfl, rfl⟩ := Point.affine.inj e
    exact ⟨hx, hy⟩

/-- A command that finishes a point register's value completes with it. -/
theorem completesPt_readPt {i : Instr} {s : State} {d a : PReg} (hs : s.DataInv)
    (h : exec i s = s.finishPt d (.ok (s.readPt a))) : CompletesPt i s d (s.readPt a) :=
  completesPt_of_finish h fun _ _ => hs.readPt_lt

/-! ### PSET, PINF, PLDG and the moves -/

/-- Settles O25: the contents of two field registers fit, and PSET looks at no check. -/
theorem psetBuildsRawPoint : Obligations.PsetBuildsRawPoint :=
  ⟨fun _ _ a b hs => ⟨opcode_eq _, completesPt_affine rfl (hs.fits (.f a)) (hs.fits (.f b))⟩,
    illegalWhen_opc (by decide) rfl fun _ _ _ hd _ _ => by
      simp_all [Fields.classes, Encoder.blank, Fields.fieldOk]⟩

/-- Settles O26: INF is written in every state. -/
theorem pinfLoadsInfinity : Obligations.PinfLoadsInfinity :=
  ⟨fun _ _ => ⟨opcode_eq _, completesPt_inf rfl⟩,
    illegalWhen_opc (by decide) rfl fun _ _ _ hd ha hb => by
      simp_all [Fields.classes, Encoder.blank, Fields.fieldOk]⟩

/-- Under LOCK PLDG finishes the generator (41_point.md R129). -/
theorem exec_pldg_of_lock {s : State} (hl : s.ctrl.lock = true) (d : PReg) : exec (.pldg d) s =
    s.finishPt d (.ok (.affine s.consts.cgx s.consts.cgy)) := by
  simp [exec, execPldg, State.checkedLock, hl, Except.map]

/-- Settles O27: the check of LOCK is the only one, and the generator's coordinates fit. -/
theorem pldgLoadsGenerator : Obligations.PldgLoadsGenerator :=
  ⟨fun _ d hs => ⟨opcode_eq _, lockFault _ _, fun hl => completesPt_affine (exec_pldg_of_lock hl d)
      (hs.fits (.const .cgx)) (hs.fits (.const .cgy))⟩,
    illegalWhen_opc (by decide) rfl fun _ _ _ hd ha hb => by
      simp_all [Fields.classes, Encoder.blank, Fields.fieldOk]⟩

/-- Settles O28: the x of an affine value, and the fault of INF before any destination is looked
at. -/
theorem pgetxReadsXOrFaults : Obligations.PgetxReadsXOrFaults := by
  refine ⟨fun s d a hs => ⟨opcode_eq _, fun x y hP => ?_, fun hP => faultsWith_of_next ?_⟩,
    illegalWhen_opc (by decide) rfl fun _ _ _ _ ha hb => ?_⟩
  · refine completesF_of_finish ?_ (hs.dataInv.readPt_lt hP).1
    simp only [exec, execPgetx, hP, Point.coord]
  · simp only [exec, execPgetx, hP, Point.coord]
    rfl
  · simp_all [Fields.classes, Encoder.blank, Fields.fieldOk]

/-- Settles O29: the y of an affine value, or the fault of INF. -/
theorem pgetyReadsYOrFaults : Obligations.PgetyReadsYOrFaults := by
  refine ⟨fun s d a hs => ⟨opcode_eq _, fun x y hP => ?_, fun hP => faultsWith_of_next ?_⟩,
    illegalWhen_opc (by decide) rfl fun _ _ _ _ ha hb => ?_⟩
  · refine completesF_of_finish ?_ (hs.dataInv.readPt_lt hP).2
    simp only [exec, execPgety, hP, Point.coord]
  · simp only [exec, execPgety, hP, Point.coord]
    rfl
  · simp_all [Fields.classes, Encoder.blank, Fields.fieldOk]

/-- Settles O30: PMOV finishes the Point value of its source, which is INF or raw by the inf bit. -/
theorem pmovCopiesPointValue : Obligations.PmovCopiesPointValue := by
  refine ⟨fun s d a hs => ?_, illegalWhen_opc (by decide) rfl fun _ _ _ hd ha hb => ?_⟩
  · have hmov : CompletesPt (.pmov d a) s d (s.readPt a) := completesPt_readPt hs.dataInv rfl
    refine ⟨opcode_eq _, fun hinf => ?_, fun hinf => ?_⟩
    · rwa [State.readPt, PtReg.point, if_pos hinf] at hmov
    · rwa [State.readPt, PtReg.point, if_neg (Bool.eq_false_iff.1 hinf)] at hmov
  · simp_all [Fields.classes, Encoder.blank, Fields.fieldOk]

/-! ### The adder, the doubler and the negation -/

/-- The checks let a ready point command have CP. -/
theorem Ready.checkedPrime {i : Instr} {s : State} (h : Ready i s)
    (hi : modulusNeeded i = some .p) : s.checkedPrime = .ok s.consts.cp := by
  rw [checkedPrime_eq, h.checkedModulus hi, State.modulus]

theorem Ready.two_le_cp {i : Instr} {s : State} (h : Ready i s)
    (hi : modulusNeeded i = some .p) : 2 ≤ s.consts.cp := h.modulus .p hi

theorem exec_padd_of_ready {s : State} {d a b : PReg} (h : Ready (.padd d a b) s) :
    exec (.padd d a b) s =
      s.finishPt d (pointAdd s.consts.cp s.consts.ca (s.readPt a) (s.readPt b)) := by
  simp only [exec, execPadd, h.checkedPrime rfl, Except.bind]

theorem exec_pneg_of_ready {s : State} {d a : PReg} (h : Ready (.pneg d a) s) :
    exec (.pneg d a) s = s.finishPt d (.ok (pointNeg s.consts.cp (s.readPt a))) := by
  simp only [exec, execPneg, h.checkedPrime rfl, Except.map]

/-- Doubling is adding a point to itself (41_point.md R122), so it ends alike. -/
theorem completesPt_pdbl {s : State} {d a : PReg} {P : Point}
    (h : CompletesPt (.padd d a a) s d P) : CompletesPt (.pdbl d a) s d P := h

theorem faultsWith_pdbl {s : State} {d a : PReg} {c : FaultCode}
    (h : FaultsWith (.padd d a a) s c) : FaultsWith (.pdbl d a) s c := h

theorem Ready.padd_of_pdbl {s : State} {d a : PReg} (h : Ready (.pdbl d a) s) :
    Ready (.padd d a a) s := h.congr rfl rfl rfl rfl

/-- A canonical point fits a point register. -/
theorem completesPt_of_lt_cp {i : Instr} {s : State} {d : PReg} {x y : Nat} (hs : s.DataInv)
    (h : exec i s = s.finishPt d (.ok (.affine x y))) (hx : x < s.consts.cp)
    (hy : y < s.consts.cp) : CompletesPt i s d (.affine x y) :=
  completesPt_affine h (hx.trans (hs.modulus_lt .p)) (hy.trans (hs.modulus_lt .p))

/-- A command that computes the third point of a line completes with it where the slope's denominator
is invertible, and faults E_INV_ZERO elsewhere (41_point.md R125). -/
theorem ends_of_thirdPoint {i : Instr} {s : State} {d : PReg} {x1 y1 x2 : Nat} {num den : Int}
    (hs : s.DataInv) (hp : 2 ≤ s.consts.cp)
    (h : exec i s = s.finishPt d (thirdPoint s.consts.cp x1 y1 x2 num den)) :
    (Int.gcd den s.consts.cp = 1 → ∃ lam x y, Slope s.consts.cp num den lam ∧
      OnSlope s.consts.cp x1 y1 x2 lam x y ∧ CompletesPt i s d (.affine x y)) ∧
    (Int.gcd den s.consts.cp ≠ 1 → FaultsWith i s .invZero) := by
  refine ⟨fun hg => ?_, fun hg => ?_⟩
  · obtain ⟨lam, x, y, hlam, hxy, hthird⟩ := thirdPoint_of_gcd_eq_one x1 y1 x2 hp hg
    exact ⟨lam, x, y, hlam, hxy, completesPt_of_lt_cp hs (h.trans (by rw [hthird])) hxy.xLt hxy.yLt⟩
  · refine faultsWith_of_finishPt (d := d) ?_
    rw [h, thirdPoint_of_gcd_ne_one _ _ _ (by omega) hg]

/-- Settles O20: one branch of Add for each clause, the two that divide by the third point of the
tangent and of the chord. -/
theorem paddAddsPoints : Obligations.PaddAddsPoints := by
  refine ⟨fun s d a b hs => ⟨opcode_eq _, lockFault _ _, modulusFault _ _, fun hr => ?_⟩,
    illegalWhen_opc (by decide) rfl fun _ _ _ hd ha hb => ?_⟩
  · have hexec := exec_padd_of_ready hr
    have hp := hr.two_le_cp rfl
    refine ⟨fun hP => ?_, fun hQ => ?_, fun x1 y1 x2 y2 hP hQ => ?_⟩
    · exact completesPt_readPt hs.dataInv (by rw [hexec, hP, pointAdd_inf_left])
    · exact completesPt_readPt hs.dataInv (by rw [hexec, hQ, pointAdd_inf_right])
    · rw [hP, hQ] at hexec
      refine ⟨fun hx hy => ?_, fun hx hy hne => ?_, fun hopp hne => ?_⟩
      · exact completesPt_inf (by rw [hexec, pointAdd_of_opposite hx hy])
      · exact ends_of_thirdPoint hs.dataInv hp (by rw [hexec, pointAdd_of_eq hx hy hne])
      · exact ends_of_thirdPoint hs.dataInv hp (by rw [hexec, pointAdd_of_ne hopp hne])
  · simp_all [Fields.classes, Encoder.blank, Fields.fieldOk]

/-- Settles O21: PDBL is PADD of a point with itself, where equal raw points leave INF, the opposite
point and the tangent. -/
theorem pdblDoublesPoint : Obligations.PdblDoublesPoint := by
  refine ⟨fun s d a hs => ⟨opcode_eq _, lockFault _ _, modulusFault _ _, fun hr => ?_⟩,
    illegalWhen_opc (by decide) rfl fun _ _ _ hd ha hb => ?_⟩
  · obtain ⟨-, -, -, hadd⟩ := paddAddsPoints.1 s d a a hs
    obtain ⟨hinf, -, haff⟩ := hadd hr.padd_of_pdbl
    refine ⟨fun hP => completesPt_pdbl (hP ▸ hinf hP), fun x y hP => ?_⟩
    obtain ⟨hopp, htangent, -⟩ := haff x y x y hP hP
    rw [two_mul]
    refine ⟨fun hy => completesPt_pdbl (hopp rfl hy), fun hy hg => ?_, fun hy hg => ?_⟩
    · obtain ⟨lam, xr, yr, hlam, hxy, h⟩ := (htangent rfl rfl hy).1 hg
      exact ⟨lam, xr, yr, hlam, hxy, completesPt_pdbl h⟩
    · exact faultsWith_pdbl ((htangent rfl rfl hy).2 hg)
  · simp_all [Fields.classes, Encoder.blank, Fields.fieldOk]

/-- The y of a negated point is opposite to the y it had (41_point.md R123). -/
theorem residue_sub_add_mod {p : Nat} (hp : 0 < p) (y : Nat) :
    (residue ((p : Int) - y) p + y) % p = 0 := by
  rw [← Nat.dvd_iff_mod_eq_zero, ← Int.natCast_dvd_natCast, ← Int.modEq_zero_iff_dvd, Nat.cast_add]
  calc (residue ((p : Int) - y) p : Int) + y
      ≡ p - y + y [ZMOD p] := (residue_modEq _ hp).add_right _
    _ = p := by ring
    _ ≡ 0 [ZMOD p] := Int.modEq_zero_iff_dvd.2 dvd_rfl

/-- Settles O22: the residue of p − y is canonical and opposite to y, whatever y is stored. -/
theorem pnegNegatesPoint : Obligations.PnegNegatesPoint := by
  refine ⟨fun s d a hs => ⟨opcode_eq _, lockFault _ _, modulusFault _ _, fun hr => ?_⟩,
    illegalWhen_opc (by decide) rfl fun _ _ _ hd ha hb => ?_⟩
  · have hexec := exec_pneg_of_ready hr
    have hp : 0 < s.consts.cp := hr.modulus_pos rfl
    refine ⟨fun hP => ?_, fun x y hP => ⟨residue ((s.consts.cp : Int) - y) s.consts.cp,
      residue_lt _ hp, residue_sub_add_mod hp y, ?_⟩⟩
    · exact completesPt_inf (by rw [hexec, hP, pointNeg])
    · exact completesPt_affine (by rw [hexec, hP, pointNeg]) (hs.dataInv.readPt_lt hP).1
        ((residue_lt _ hp).trans (hs.dataInv.modulus_lt .p))
  · simp_all [Fields.classes, Encoder.blank, Fields.fieldOk]

end Sys2Proof.Machine
end

section
/-! SUPPORT. The adder and the negation on the points of the curve (41_point.md R133): for a prime CP
they compute in the field of integers mod CP what Mathlib's group law says. -/

namespace Sys2Proof.Machine

open WeierstrassCurve

/-! ### The congruences in the field -/

/-- A congruence is an equation in the field (00_scope.md R11). -/
theorem modEq_iff_zmod {p : Nat} {x y : Int} : x ≡ y [ZMOD p] ↔ (x : ZMod p) = y :=
  (ZMod.intCast_eq_intCast_iff x y p).symm

/-- The curve has no a₁ and no a₃, so a point's opposite has the opposite y. -/
theorem curve_negY {p a b : Nat} (x y : ZMod p) : (curve p a b).negY x y = -y := by
  simp [curve, Affine.negY]

section
variable {p a b : Nat} [Fact p.Prime]

/-- A quotient in the field is the slope that Add computes, and its denominator is invertible
(41_point.md R125). -/
theorem slope_val {num den : Int} {n d : ZMod p} (hnum : (num : ZMod p) = n)
    (hden : (den : ZMod p) = d) (hd : d ≠ 0) :
    Int.gcd den p = 1 ∧ Slope p num den (n / d).val := by
  subst hnum hden
  refine ⟨?_, ZMod.val_lt _, modEq_iff_zmod.2 ?_⟩
  · rw [← Int.isCoprime_iff_gcd_eq_one]
    exact ((ZMod.coe_int_isUnit_iff_isCoprime den p).1 hd.isUnit).symm
  · simp [div_mul_cancel₀ _ hd]

/-- Mathlib's slope at a point that is not its own opposite is the tangent's. -/
theorem slope_tangent {x y : ZMod p} (h : y ≠ (curve p a b).negY x y) :
    Int.gcd (2 * y.val) p = 1 ∧
      Slope p (3 * x.val * x.val + a) (2 * y.val) ((curve p a b).slope x x y y).val := by
  rw [Affine.slope_of_Y_ne rfl h]
  refine slope_val ?_ ?_ (sub_ne_zero.2 h)
  · simp only [curve]
    push_cast [ZMod.natCast_zmod_val]
    ring
  · rw [curve_negY, sub_neg_eq_add, ← two_mul]
    simp

/-- Mathlib's slope at two points of different x is the chord's. -/
theorem slope_chord {x1 y1 x2 y2 : ZMod p} (h : x1 ≠ x2) :
    Int.gcd ((x2.val : Int) - x1.val) p = 1 ∧ Slope p ((y2.val : Int) - y1.val)
      ((x2.val : Int) - x1.val) ((curve p a b).slope x1 x2 y1 y2).val := by
  rw [Affine.slope_of_X_ne h, ← neg_div_neg_eq, neg_sub, neg_sub]
  exact slope_val (by simp) (by simp) (sub_ne_zero.2 h.symm)

/-- Mathlib's third point is the one that Add computes. -/
theorem onSlope_val (x1 y1 x2 lam : ZMod p) : OnSlope p x1.val y1.val x2.val lam.val
    ((curve p a b).addX x1 x2 lam).val ((curve p a b).addY x1 x2 y1 lam).val := by
  refine ⟨ZMod.val_lt _, ZMod.val_lt _, modEq_iff_zmod.2 ?_, modEq_iff_zmod.2 ?_⟩
  · simp only [curve, Affine.addX]
    push_cast [ZMod.natCast_zmod_val]
    ring
  · rw [Affine.addY, curve_negY]
    simp only [curve, Affine.negAddY, Affine.addX]
    push_cast [ZMod.natCast_zmod_val]
    ring

/-- Raw points that hold points of the curve are opposite exactly when Mathlib's are. -/
theorem opposite_iff (x1 y1 x2 y2 : ZMod p) : (x1.val = x2.val ∧ (y1.val + y2.val) % p = 0) ↔
    (x1 = x2 ∧ y1 = (curve p a b).negY x2 y2) := by
  rw [(ZMod.val_injective p).eq_iff, ← Nat.dvd_iff_mod_eq_zero, ← ZMod.natCast_eq_zero_iff,
    curve_negY, eq_neg_iff_add_eq_zero]
  simp

/-! ### Add and Negate on points of the curve -/

/-- Add computes the group sum (41_point.md R133). -/
theorem pointAdd_pointOf (M N : (curve p a b).Point) :
    pointAdd p a (pointOf M) (pointOf N) = .ok (pointOf (M + N)) := by
  have hp : 2 ≤ p := (Fact.out : p.Prime).two_le
  cases M with
  | zero => rw [← Affine.Point.zero_def, zero_add]; exact pointAdd_inf_left p a _
  | some x1 y1 h1 =>
    cases N with
    | zero => rw [← Affine.Point.zero_def, add_zero]; exact pointAdd_inf_right p a _
    | some x2 y2 h2 =>
      by_cases hopp : x1 = x2 ∧ y1 = (curve p a b).negY x2 y2
      · obtain ⟨hx, hy⟩ := (opposite_iff x1 y1 x2 y2).2 hopp
        rw [Affine.Point.add_of_Y_eq hopp.1 hopp.2]
        exact pointAdd_of_opposite hx hy
      · have hopp' := (opposite_iff x1 y1 x2 y2).not.2 hopp
        rw [Affine.Point.add_some hopp]
        by_cases hx : x1 = x2
        · obtain rfl := hx
          have hne : y1 ≠ (curve p a b).negY x1 y2 := fun hy => hopp ⟨rfl, hy⟩
          obtain rfl := Affine.Y_eq_of_Y_ne h1.1 h2.1 rfl hne
          obtain ⟨hg, hslope⟩ := slope_tangent hne
          rw [pointOf, pointOf, pointAdd_of_eq rfl rfl fun hy => hopp' ⟨rfl, hy⟩]
          exact thirdPoint_eq hp hg hslope (onSlope_val x1 y1 x1 _)
        · obtain ⟨hg, hslope⟩ := slope_chord (a := a) (b := b) (y1 := y1) (y2 := y2) hx
          rw [pointOf, pointOf, pointAdd_of_ne hopp' fun h => hx (ZMod.val_injective p h.1)]
          exact thirdPoint_eq hp hg hslope (onSlope_val x1 y1 x2 _)

/-- Negate computes the group's negation (41_point.md R133). -/
theorem pointNeg_pointOf (M : (curve p a b).Point) : pointNeg p (pointOf M) = pointOf (-M) := by
  have hp : 0 < p := (Fact.out : p.Prime).pos
  cases M with
  | zero => rfl
  | some x y h =>
    have hy : ((residue ((p : Int) - y.val) p : Nat) : Int) ≡ (-y).val [ZMOD p] :=
      (residue_modEq _ hp).trans (modEq_iff_zmod.2 (by simp))
    rw [Affine.Point.neg_some, pointOf, pointNeg, pointOf, curve_negY,
      eq_of_modEq_of_lt hy (residue_lt _ hp) (ZMod.val_lt _)]

/-- The coordinates of a point of the curve are canonical. -/
theorem lt_of_pointOf_eq {M : (curve p a b).Point} {x y : Nat} (h : pointOf M = .affine x y) :
    x < p ∧ y < p := by
  cases M with
  | zero => cases h
  | some x' y' _ =>
    obtain ⟨rfl, rfl⟩ := Point.affine.inj h
    exact ⟨ZMod.val_lt _, ZMod.val_lt _⟩

end

/-! ### The commands -/

/-- A command that finishes a point of the curve completes with it: its coordinates fit. -/
theorem completesPt_pointOf {i : Instr} {s : State} {d : PReg} [Fact s.consts.cp.Prime]
    {M : (curve s.consts.cp s.consts.ca s.consts.cb).Point} (hs : s.DataInv)
    (h : exec i s = s.finishPt d (.ok (pointOf M))) : CompletesPt i s d (pointOf M) :=
  completesPt_of_finish h fun _ _ hM =>
    (lt_of_pointOf_eq hM).imp (·.trans (hs.modulus_lt .p)) (·.trans (hs.modulus_lt .p))

/-- Under LOCK with a prime CP the checks let every point command run. -/
theorem ready_of_prime {i : Instr} {s : State} [hp : Fact s.consts.cp.Prime]
    (hl : s.ctrl.lock = true) (hi : modulusNeeded i = some .p) : Ready i s := by
  refine ⟨fun _ => hl, fun sel hsel => ?_⟩
  obtain rfl : Modulus.p = sel := Option.some.inj (hi.symm.trans hsel)
  exact hp.out.two_le

/-- A PADD of points of the curve completes with their sum. -/
theorem completesPt_padd_pointOf {s : State} {d a b : PReg} [Fact s.consts.cp.Prime]
    {M N : (curve s.consts.cp s.consts.ca s.consts.cb).Point} (hs : s.DataInv)
    (hl : s.ctrl.lock = true) (hM : s.readPt a = pointOf M) (hN : s.readPt b = pointOf N) :
    CompletesPt (.padd d a b) s d (pointOf (M + N)) := by
  refine completesPt_pointOf hs ?_
  rw [exec_padd_of_ready (ready_of_prime hl rfl), hM, hN, pointAdd_pointOf]

/-- Settles O37: the adder on two points and, for PDBL, on one point twice; and the negation. -/
theorem pointCommandsAreTheGroupLaw : Obligations.PointCommandsAreTheGroupLaw := by
  intro s d a b _ M N hs hl hM hN
  refine ⟨completesPt_padd_pointOf hs.dataInv hl hM hN,
    completesPt_pdbl (completesPt_padd_pointOf hs.dataInv hl hM hM),
    completesPt_pointOf hs.dataInv ?_⟩
  rw [exec_pneg_of_ready (ready_of_prime hl rfl), hM, pointNeg_pointOf]

end Sys2Proof.Machine
end

section
/-! SUPPORT. The scalar multiplication: the ladder iteration by iteration, the values its iterations
can reach, and the statements about PMUL and the engine. -/

namespace Sys2Proof

/-- What a legal PMUL word's fields hold (30_encoding.md R86). -/
theorem Fields.pmul_of_legal {x : Fields} (h : x.legal = true) (hopc : x.opc = 0x13) :
    x.msel = 0 ∧ x.d.toNat < 8 ∧ x.a.toNat < 8 ∧ x.rsv = 0 := by
  have hclasses : x.classes = (.pt, .pt, .f) := by simp [classes, hopc]
  obtain ⟨-, hrsv, -, hmsel, -, hd, ha, -⟩ := x.legal_iff.1 h
  rw [hclasses] at hd ha
  exact ⟨hmsel.resolve_right (by simp [hopc]), of_decide_eq_true hd, of_decide_eq_true ha, hrsv⟩

end Sys2Proof

namespace Sys2Proof.Machine

/-! ### The ladder and the loop of the pseudocode -/

section
variable {p a k : Nat}

/-- An iteration ends exactly with the conditional sum and the doubled point (42_scalar_mul.md
R151). -/
theorem ladderBit_eq_ok {l l' : Ladder} : ladderBit p a k l = .ok l' ↔
    (if k.testBit l.i then pointAdd p a l.r l.q else .ok l.r) = .ok l'.r ∧
      pointAdd p a l.q l.q = .ok l'.q ∧ l'.i = l.i + 1 := by
  obtain ⟨r', q', i'⟩ := l'
  unfold ladderBit
  cases (if k.testBit l.i then pointAdd p a l.r l.q else .ok l.r) with
  | error c => simp
  | ok r =>
    cases pointAdd p a l.q l.q with
    | error c => simp
    | ok q => simp [eq_comm]

/-- A run that ends, one iteration longer. -/
theorem ladderRun_succ_of_ok {n : Nat} {l l' : Ladder} (h : ladderRun p a k n l = .ok l') :
    ladderRun p a k (n + 1) l = ladderBit p a k l' := by
  rw [ladderRun_succ, h]
  rfl

/-- The body of the pseudocode's loop on (R, Q). -/
def loopBody (p a k : Nat) (RQ : Point × Point) (i : Nat) : Except FaultCode (Point × Point) := do
  let R ← (if k.testBit i then pointAdd p a RQ.1 RQ.2 else .ok RQ.1)
  let Q ← pointAdd p a RQ.2 RQ.2
  .ok (R, Q)

theorem ladderLoop_eq_foldlM (p a k : Nat) (P : Point) :
    ladderLoop p a k P = (List.range (bitlen k)).foldlM (loopBody p a k) (.inf, P) := rfl

/-- The engine's state that holds the pair (R, Q) before bit i. -/
def ladderOfPair (i : Nat) (RQ : Point × Point) : Ladder := { r := RQ.1, q := RQ.2, i := i }

/-- One iteration of the engine is one of the loop. -/
theorem ladderBit_eq_loopBody (p a k : Nat) (l : Ladder) :
    ladderBit p a k l = (loopBody p a k (l.r, l.q) l.i).map (ladderOfPair (l.i + 1)) := by
  unfold ladderBit loopBody
  cases (if k.testBit l.i then pointAdd p a l.r l.q else .ok l.r) with
  | error c => rfl
  | ok R => cases pointAdd p a l.q l.q <;> rfl

/-- The engine runs the loop of the pseudocode (42_scalar_mul.md R151). -/
theorem ladderRun_eq_foldlM (p a k : Nat) (P : Point) (n : Nat) :
    ladderRun p a k n (ladderStart P) =
      ((List.range n).foldlM (loopBody p a k) (.inf, P)).map (ladderOfPair n) := by
  induction n with
  | zero => rfl
  | succ n ih =>
    rw [ladderRun_succ, ih, List.range_succ, List.foldlM_append]
    cases (List.range n).foldlM (loopBody p a k) (.inf, P) with
    | error c => rfl
    | ok RQ =>
      rw [Except.map, Except.bind, ladderBit_eq_loopBody]
      cases h : loopBody p a k RQ n <;> simp [ladderOfPair, h, bind, Except.bind, pure, Except.pure]

theorem ladderRun_bitlen (p a k : Nat) (P : Point) :
    ladderRun p a k (bitlen k) (ladderStart P) =
      (ladderLoop p a k P).map (ladderOfPair (bitlen k)) := by
  rw [ladderLoop_eq_foldlM, ladderRun_eq_foldlM]

/-- PMUL's body on a scalar and a point that it runs the ladder for. -/
theorem scalarMul_of_ne {P : Point} (neg : Bool) (hk : k ≠ 0) (hP : P ≠ .inf) :
    scalarMul p a neg k P =
      (ladderRun p a k (bitlen k) (ladderStart (ladderPoint p neg P))).map Ladder.r := by
  rw [scalarMul, if_neg (not_or.2 ⟨hk, hP⟩)]
  cases ladderRun p a k (bitlen k) (ladderStart (ladderPoint p neg P)) <;> rfl

theorem scalarMul_of_zero_or_inf {P : Point} (neg : Bool) (h : k = 0 ∨ P = .inf) :
    scalarMul p a neg k P = .ok .inf := if_pos h

/-! ### Values that fit -/

/-- Both coordinates are below n. -/
def Point.Below (n : Nat) (P : Point) : Prop := ∀ x y, P = .affine x y → x < n ∧ y < n

theorem below_inf (n : Nat) : Point.Below n .inf := nofun

theorem below_affine {n x y : Nat} : Point.Below n (.affine x y) ↔ x < n ∧ y < n :=
  ⟨fun h => h x y rfl, fun h _ _ e => by obtain ⟨rfl, rfl⟩ := Point.affine.inj e; exact h⟩

/-- The third point of a line is canonical, and so fits wherever p does. -/
theorem below_of_thirdPoint {n x1 y1 x2 : Nat} {num den : Int} {R : Point} (hp : 0 < p)
    (hn : p ≤ n) (h : thirdPoint p x1 y1 x2 num den = .ok R) : R.Below n := by
  unfold thirdPoint at h
  cases hinv : inv den p with
  | error c => rw [hinv] at h; cases h
  | ok v =>
    rw [hinv] at h
    cases h
    exact below_affine.2 ⟨(residue_lt _ hp).trans_le hn, (residue_lt _ hp).trans_le hn⟩

/-- Add answers INF, an operand or a canonical point (41_point.md R121). -/
theorem below_of_pointAdd {n : Nat} {P Q R : Point} (hp : 0 < p) (hn : p ≤ n) (hP : P.Below n)
    (hQ : Q.Below n) (h : pointAdd p a P Q = .ok R) : R.Below n := by
  cases P with
  | inf => rw [pointAdd_inf_left] at h; cases h; exact hQ
  | affine x1 y1 =>
    cases Q with
    | inf => rw [pointAdd_inf_right] at h; cases h; exact hP
    | affine x2 y2 =>
      by_cases hopp : x1 = x2 ∧ (y1 + y2) % p = 0
      · rw [pointAdd_of_opposite hopp.1 hopp.2] at h
        cases h
        exact below_inf n
      · by_cases heq : x1 = x2 ∧ y1 = y2
        · rw [pointAdd_of_eq heq.1 heq.2 fun hy => hopp ⟨heq.1, hy⟩] at h
          exact below_of_thirdPoint hp hn h
        · rw [pointAdd_of_ne hopp heq] at h
          exact below_of_thirdPoint hp hn h

/-- Every R and Q of a run fit where P and p do. -/
theorem below_of_ladderRun {n : Nat} {P : Point} (hp : 0 < p) (hn : p ≤ n) (hP : P.Below n) :
    ∀ {m : Nat} {l : Ladder}, ladderRun p a k m (ladderStart P) = .ok l →
      l.r.Below n ∧ l.q.Below n := by
  intro m
  induction m with
  | zero =>
    intro l h
    obtain rfl : ladderStart P = l := Except.ok.inj h
    exact ⟨below_inf n, hP⟩
  | succ m ih =>
    intro l h
    cases hrun : ladderRun p a k m (ladderStart P) with
    | error c => rw [ladderRun_succ, hrun] at h; cases h
    | ok l' =>
      rw [ladderRun_succ_of_ok hrun, ladderBit_eq_ok] at h
      obtain ⟨hr, hq, -⟩ := h
      obtain ⟨hr', hq'⟩ := ih hrun
      refine ⟨?_, below_of_pointAdd hp hn hq' hq' hq⟩
      split at hr
      · exact below_of_pointAdd hp hn hr' hq' hr
      · exact Except.ok.inj hr ▸ hr'

end

/-- The point of the ladder keeps its x; NEG = 1 negates its y once (42_scalar_mul.md R150). -/
theorem ladderPoint_affine {p : Nat} (hp : 0 < p) (neg : Bool) (x y : Nat) :
    ∃ y', (neg = false → y' = y) ∧ (neg = true → y' < p ∧ (y' + y) % p = 0) ∧
      ladderPoint p neg (.affine x y) = .affine x y' := by
  cases neg with
  | false => exact ⟨y, fun _ => rfl, nofun, rfl⟩
  | true => exact ⟨_, nofun, fun _ => ⟨residue_lt _ hp, residue_sub_add_mod hp y⟩, rfl⟩

/-! ### PMUL -/

section
variable {s : State} {neg : Bool} {d a : PReg} {b : FReg}

theorem exec_pmul_of_ready (h : Ready (.pmul neg d a b) s) : exec (.pmul neg d a b) s =
    s.finishPt d (scalarMul s.consts.cp s.consts.ca neg (s.readF b) (s.readPt a)) := by
  simp only [exec, execPmul, h.checkedPrime rfl, Except.bind]

/-- A PMUL by 0 or of INF completes with INF (42_scalar_mul.md R150). -/
theorem completesPt_pmul_inf (hr : Ready (.pmul neg d a b) s)
    (h : s.readF b = 0 ∨ s.readPt a = .inf) : CompletesPt (.pmul neg d a b) s d .inf :=
  completesPt_inf (by rw [exec_pmul_of_ready hr, scalarMul_of_zero_or_inf neg h])

/-- The ladder's point fits a point register. -/
theorem below_ladderPoint (hs : s.DataInv) (hp : 0 < s.consts.cp) :
    (ladderPoint s.consts.cp neg (s.readPt a)).Below (2 ^ s.params.width) := by
  cases hP : s.readPt a with
  | inf => cases neg <;> exact below_inf _
  | affine x y =>
    obtain ⟨hx, hy⟩ := hs.readPt_lt hP
    obtain ⟨y', hpos, hneg, he⟩ := ladderPoint_affine hp neg x y
    rw [he, below_affine]
    cases neg with
    | false => exact ⟨hx, hpos rfl ▸ hy⟩
    | true => exact ⟨hx, (hneg rfl).1.trans (hs.modulus_lt .p)⟩

/-- A PMUL that runs the ladder finishes its R or its fault. -/
theorem exec_pmul_of_ne (hr : Ready (.pmul neg d a b) s) (hk : s.readF b ≠ 0)
    (hP : s.readPt a ≠ .inf) : exec (.pmul neg d a b) s = s.finishPt d
      ((ladderRun s.consts.cp s.consts.ca (s.readF b) (bitlen (s.readF b))
        (ladderStart (ladderPoint s.consts.cp neg (s.readPt a)))).map Ladder.r) := by
  rw [exec_pmul_of_ready hr, scalarMul_of_ne neg hk hP]

/-- A PMUL whose ladder ends completes with its R. -/
theorem completesPt_pmul_of_ladderRun {l : Ladder} (hs : s.DataInv)
    (hr : Ready (.pmul neg d a b) s) (hk : s.readF b ≠ 0) (hP : s.readPt a ≠ .inf)
    (h : ladderRun s.consts.cp s.consts.ca (s.readF b) (bitlen (s.readF b))
      (ladderStart (ladderPoint s.consts.cp neg (s.readPt a))) = .ok l) :
    CompletesPt (.pmul neg d a b) s d l.r := by
  have hp : 0 < s.consts.cp := hr.modulus_pos rfl
  refine completesPt_of_finish (by rw [exec_pmul_of_ne hr hk hP, h]; rfl) ?_
  exact (below_of_ladderRun hp (hs.modulus_lt .p).le (below_ladderPoint hs hp) h).1

/-- A PMUL whose ladder faults ends with that fault (42_scalar_mul.md R153). -/
theorem exec_pmul_of_ladderRun_error {c : FaultCode} (hr : Ready (.pmul neg d a b) s)
    (hk : s.readF b ≠ 0) (hP : s.readPt a ≠ .inf)
    (h : ladderRun s.consts.cp s.consts.ca (s.readF b) (bitlen (s.readF b))
      (ladderStart (ladderPoint s.consts.cp neg (s.readPt a))) = .error c) :
    exec (.pmul neg d a b) s = .next (s.takeFault c) := by
  rw [exec_pmul_of_ne hr hk hP, h]
  rfl

end

/-- Settles O23: the engine's run is the loop of the pseudocode, every R it reaches fits, and its
faults are Add's. -/
theorem pmulRunsTheLadder : Obligations.PmulRunsTheLadder := by
  refine ⟨fun s neg d a b hs => ⟨opcode_eq _, lockFault _ _, modulusFault _ _, fun hr =>
    ⟨completesPt_pmul_inf hr, fun x y hk hP => ?_⟩⟩,
    illegalWhen_of_not_legal fun x hx ⟨hopc, hbad⟩ => ?_⟩
  · have hp : 0 < s.consts.cp := hr.modulus_pos rfl
    obtain ⟨y', hpos, hneg, he⟩ := ladderPoint_affine hp neg x y
    have hrun := ladderRun_bitlen s.consts.cp s.consts.ca (s.readF b) (.affine x y')
    have hne : s.readPt a ≠ .inf := by simp [hP]
    rw [← hP] at he
    refine ⟨y', hpos, hneg, fun R Q h => ?_, fun c h => ?_⟩
    · rw [h, ← he] at hrun
      exact completesPt_pmul_of_ladderRun hs.dataInv hr hk hne hrun
    · rw [h, ← he] at hrun
      obtain rfl : c = .invZero := ladderRun_error_code hrun
      exact ⟨rfl, faultsWith_of_next (exec_pmul_of_ladderRun_error hr hk hne hrun)⟩
  · obtain ⟨hmsel, hd, ha, hrsv⟩ := Fields.pmul_of_legal hx hopc
    rcases hbad with h | h | h | h
    · exact h hmsel
    · exact absurd hd h.not_gt
    · exact absurd ha h.not_gt
    · exact h hrsv

/-! ### Multiples by 1 and of order two -/

section
variable {p a k : Nat}

/-- The opposite y has the opposite double modulo p, so the same common factors. -/
theorem gcd_double_of_opposite {y y' : Nat} (h : (y' + y) % p = 0) :
    Int.gcd (2 * y') p = Int.gcd (2 * y) p := by
  have hmod : (2 * y' : Int) ≡ -(2 * y) [ZMOD p] := by
    obtain ⟨c, hc⟩ := Nat.dvd_of_mod_eq_zero h
    rw [Int.modEq_iff_dvd]
    refine ⟨-2 * c, ?_⟩
    have : (y' : Int) + y = p * c := by exact_mod_cast hc
    linear_combination -2 * this
  rw [← Int.gcd_emod, hmod, Int.gcd_emod, Int.neg_gcd]

/-- Doubling an affine point with 2y invertible does not fault (41_point.md R125). -/
theorem pointAdd_self_of_gcd (hp : 2 ≤ p) (a x : Nat) {y : Nat} (hg : Int.gcd (2 * y) p = 1) :
    ∃ Q, pointAdd p a (.affine x y) (.affine x y) = .ok Q := by
  by_cases hopp : (y + y) % p = 0
  · exact ⟨_, pointAdd_of_opposite rfl hopp⟩
  · rw [pointAdd_of_eq rfl rfl hopp]
    obtain ⟨-, x', y', -, -, h⟩ := thirdPoint_of_gcd_eq_one x y x hp hg
    exact ⟨_, h⟩

/-- The ladder of kmag = 1 is one iteration, whose R is its point (42_scalar_mul.md R152 (b)). -/
theorem ladderRun_one {P Q : Point} (h : pointAdd p a P P = .ok Q) :
    ladderRun p a 1 (bitlen 1) (ladderStart P) = .ok { r := P, q := Q, i := 1 } := by
  have h1 : bitlen 1 = 0 + 1 := by decide
  rw [h1, ladderRun_succ_of_ok rfl, ladderBit_eq_ok]
  exact ⟨by simp [ladderStart], h, rfl⟩

/-- The ladder on a point that doubles to INF: Q is INF after the first iteration, so R stays as bit 0 has
left it (42_scalar_mul.md R152 (d)). -/
theorem ladderRun_of_double_inf {P : Point} (h : pointAdd p a P P = .ok .inf) (n : Nat) :
    ladderRun p a k (n + 1) (ladderStart P) =
      .ok { r := if k.testBit 0 then P else .inf, q := .inf, i := n + 1 } := by
  induction n with
  | zero =>
    rw [ladderRun_succ_of_ok rfl, ladderBit_eq_ok]
    refine ⟨?_, h, rfl⟩
    rw [ladderStart, pointAdd_inf_left, apply_ite Except.ok]
  | succ n ih =>
    rw [ladderRun_succ_of_ok ih, ladderBit_eq_ok]
    exact ⟨by rw [pointAdd_inf_right, ite_self], rfl, rfl⟩

theorem bitlen_of_ne_zero (hk : k ≠ 0) : bitlen k = Nat.log2 k + 1 := if_neg hk

end

/-- A PMUL whose ladder's point doubles to INF completes with that point for an odd scalar and with
INF for an even one. -/
theorem completesPt_pmul_of_double_inf {s : State} {neg : Bool} {d a : PReg} {b : FReg} {P : Point}
    (hs : s.DataInv) (hr : Ready (.pmul neg d a b) s) (hne : s.readPt a ≠ .inf)
    (he : ladderPoint s.consts.cp neg (s.readPt a) = P)
    (hdouble : pointAdd s.consts.cp s.consts.ca P P = .ok .inf) :
    CompletesPt (.pmul neg d a b) s d (if (s.readF b).testBit 0 then P else .inf) := by
  by_cases hk : s.readF b = 0
  · simpa [hk] using completesPt_pmul_inf hr (.inl hk)
  · have hrun := ladderRun_of_double_inf (k := s.readF b) hdouble (Nat.log2 (s.readF b))
    rw [← bitlen_of_ne_zero hk, ← he] at hrun
    rw [← he]
    exact completesPt_pmul_of_ladderRun hs hr hk hne hrun

/-- Settles O24: one iteration for kmag = 1, and an odd or even multiple of a point of order two. -/
theorem pmulByOneAndOfOrderTwo : Obligations.PmulByOneAndOfOrderTwo := by
  intro s neg d a b x y hs hr hP
  have hp : 2 ≤ s.consts.cp := hr.two_le_cp rfl
  obtain ⟨y', hpos, hneg, he⟩ := ladderPoint_affine (by omega : 0 < s.consts.cp) neg x y
  have hne : s.readPt a ≠ .inf := by simp [hP]
  rw [← hP] at he
  have htwo (hy : y % s.consts.cp = 0) :
      CompletesPt (.pmul neg d a b) s d (if (s.readF b).testBit 0 then .affine x y' else .inf) := by
    have hy' : y' % s.consts.cp = 0 := by
      cases neg with
      | false => rw [hpos rfl, hy]
      | true => simpa [Nat.add_mod, hy] using (hneg rfl).2
    exact completesPt_pmul_of_double_inf hs.dataInv hr hne he
      (pointAdd_of_opposite rfl (by rw [Nat.add_mod, hy', Nat.zero_mod]))
  refine ⟨y', hpos, hneg, fun ⟨hk, hg⟩ => ?_, fun hy hk => ?_, fun hy hk => ?_⟩
  · have hg' : Int.gcd (2 * y') s.consts.cp = 1 := by
      cases neg with
      | false => rw [hpos rfl, hg]
      | true => rw [gcd_double_of_opposite (hneg rfl).2, hg]
    obtain ⟨Q, hQ⟩ := pointAdd_self_of_gcd hp s.consts.ca x hg'
    have hrun := ladderRun_one hQ
    rw [← hk, ← he] at hrun
    rw [← he]
    exact completesPt_pmul_of_ladderRun hs.dataInv hr (by omega) hne hrun
  · simpa [hk] using htwo hy
  · simpa [hk] using htwo hy

/-! ### The ladder on points of the curve -/

/-- One more low bit of the scalar adds the doubled point or nothing. -/
theorem mod_two_pow_succ_nsmul {G : Type*} [AddCommMonoid G] (k n : Nat) (M : G) :
    (k % 2 ^ (n + 1)) • M =
      if k.testBit n then (k % 2 ^ n) • M + 2 ^ n • M else (k % 2 ^ n) • M := by
  rw [Nat.mod_pow_succ, Nat.testBit_eq_decide_div_mod_eq, add_nsmul]
  rcases Nat.mod_two_eq_zero_or_one (k / 2 ^ n) with h | h <;> simp [h]

/-- INF stands for the identity alone (41_point.md R133). -/
theorem pointOf_eq_inf_iff {p a b : Nat} {M : (curve p a b).Point} : pointOf M = .inf ↔ M = 0 := by
  cases M <;> simp [pointOf, WeierstrassCurve.Affine.Point.zero_def]

section
variable {p a b : Nat} [Fact p.Prime]

/-- After n iterations R is the multiple by the low n bits of k, and Q the point doubled n times. -/
theorem ladderRun_pointOf (k : Nat) (M : (curve p a b).Point) (n : Nat) :
    ladderRun p a k n (ladderStart (pointOf M)) =
      .ok { r := pointOf ((k % 2 ^ n) • M), q := pointOf (2 ^ n • M), i := n } := by
  induction n with
  | zero => simp [ladderRun, ladderStart, Nat.mod_one, pointOf_eq_inf_iff.2]
  | succ n ih =>
    rw [ladderRun_succ_of_ok ih, ladderBit_eq_ok]
    refine ⟨?_, ?_, rfl⟩
    · rw [mod_two_pow_succ_nsmul, pointAdd_pointOf]
      split <;> rfl
    · rw [pointAdd_pointOf, ← two_nsmul, ← mul_nsmul', pow_succ']

theorem ladderPoint_pointOf (neg : Bool) (M : (curve p a b).Point) :
    ladderPoint p neg (pointOf M) = pointOf (if neg then -M else M) := by
  cases neg with
  | false => rfl
  | true => exact pointNeg_pointOf M

/-- PMUL's body computes the multiple of the group (42_scalar_mul.md R154). -/
theorem scalarMul_pointOf (neg : Bool) (k : Nat) (M : (curve p a b).Point) :
    scalarMul p a neg k (pointOf M) =
      .ok (pointOf ((if neg then -(k : Int) else (k : Int)) • M)) := by
  have hsign : (if neg then -(k : Int) else (k : Int)) • M = k • (if neg then -M else M) := by
    cases neg <;> simp
  rw [hsign]
  by_cases h : k = 0 ∨ pointOf M = .inf
  · have hzero : k • (if neg then -M else M) = 0 := by
      rcases h with rfl | h
      · exact zero_nsmul _
      · cases neg <;> simp [pointOf_eq_inf_iff.1 h]
    rw [scalarMul_of_zero_or_inf neg h, hzero, pointOf_eq_inf_iff.2 rfl]
  · obtain ⟨hk, hM⟩ := not_or.1 h
    rw [scalarMul_of_ne neg hk hM, ladderPoint_pointOf, ladderRun_pointOf,
      Nat.mod_eq_of_lt (lt_two_pow_bitlen k)]
    rfl

end

/-- A PMUL of a point of the curve completes with its multiple. -/
theorem completesPt_pmul_pointOf {s : State} {neg : Bool} {d a : PReg} {b : FReg}
    [Fact s.consts.cp.Prime] {M : (curve s.consts.cp s.consts.ca s.consts.cb).Point}
    (hs : s.DataInv) (hl : s.ctrl.lock = true) (hM : s.readPt a = pointOf M) :
    CompletesPt (.pmul neg d a b) s d
      (pointOf ((if neg then -(s.readF b : Int) else (s.readF b : Int)) • M)) := by
  refine completesPt_pointOf hs ?_
  rw [exec_pmul_of_ready (ready_of_prime hl rfl), hM, scalarMul_pointOf]

/-- Settles O38: R runs through the multiples by the low bits of the scalar, which are the whole
scalar at the end. -/
theorem pmulIsScalarMultiplication : Obligations.PmulIsScalarMultiplication :=
  fun _ _ _ _ _ _ _ hs hl hM => completesPt_pmul_pointOf hs.dataInv hl hM

/-! ### Two scalars -/

/-- The state lets a PMUL run on the curve of the constants K. -/
structure RunsOn (K : CurveParams) (s : State) : Prop where
  data : s.DataInv
  consts : s.consts = K
  lock : s.ctrl.lock = true

/-- The contents of a point register read as the Point that was written to it (10_state.md R24). -/
theorem CompletesPt.readPt {i : Instr} {s t : State} {d : PReg} {P : Point}
    (h : CompletesPt i s d P) (he : exec i s = .next t) :
    t.readPt d = P ∧ (∀ j, j ≠ d → t.readPt j = s.readPt j) ∧ ∀ r, t.readF r = s.readF r := by
  obtain ⟨t', he', hd, hother, hf, -⟩ := h
  obtain rfl : t' = t := by simpa [he] using he'.symm
  refine ⟨?_, fun j hj => ?_, fun r => ?_⟩
  · cases P <;> rw [State.readPt, hd] <;> rfl
  · rw [State.readPt, hother j hj, State.readPt]
  · rw [State.readF, hf, State.readF]

/-- After a PMUL of a point of the curve: its multiple stands in PT[d], every other register is as
before, and the next PMUL runs on the same curve. -/
theorem exec_pmul_next {K : CurveParams} [Fact K.cp.Prime] {M : (curve K.cp K.ca K.cb).Point}
    {s t : State} {d a : PReg} {b : FReg} (hs : RunsOn K s) (hM : s.readPt a = pointOf M)
    (he : exec (.pmul false d a b) s = .next t) :
    RunsOn K t ∧ t.readPt d = pointOf (s.readF b • M) ∧
      (∀ j, j ≠ d → t.readPt j = s.readPt j) ∧ ∀ r, t.readF r = s.readF r := by
  obtain ⟨hdata, rfl, hlock⟩ := hs
  obtain ⟨hcontrol, hconsts, -⟩ := exec_keeps he
  have hcomp := completesPt_pmul_pointOf (neg := false) (d := d) (b := b) hdata hlock hM
  refine ⟨⟨hdata.exec he, hconsts, hcontrol.ctrl ▸ hlock⟩, ?_⟩
  simpa using hcomp.readPt he

/-- Settles O39: both registers hold the multiple by the product of the scalars, and no PMUL changes
an operand of a later one. -/
theorem ecdhAgreement : Obligations.EcdhAgreement := by
  intro s t u P A B x y _ M hs hl hM hAB hAP ht hu
  obtain ⟨hsT, htA, htOther, htF⟩ := exec_pmul_next ⟨hs.dataInv, rfl, hl⟩ hM ht
  obtain ⟨hsU, huB, huOther, huF⟩ := exec_pmul_next hsT ((htOther P hAP.symm).trans hM) hu
  obtain ⟨v, hv⟩ := exec_answers (.pmul false A A y) u
  obtain ⟨hsV, hvA, hvOther, hvF⟩ := exec_pmul_next hsU ((huOther A hAB).trans htA) hv
  obtain ⟨w, hw⟩ := exec_answers (.pmul false B B x) v
  obtain ⟨-, hwB, hwOther, -⟩ := exec_pmul_next hsV ((hvOther B hAB.symm).trans huB) hw
  refine ⟨v, w, hv, hw, ?_⟩
  calc w.readPt A = v.readPt A := hwOther A hAB
    _ = pointOf (s.readF y • s.readF x • M) := by rw [hvA, huF, htF]
    _ = pointOf (s.readF x • s.readF y • M) := by rw [smul_comm]
    _ = w.readPt B := by rw [hwB, hvF, huF, htF, htF]

/-! ### The engine's turns -/

/-- A run that faults stays faulted with more iterations (42_scalar_mul.md R153). -/
theorem ladderRun_error_of_le {p a k n m : Nat} {l : Ladder} {c : FaultCode} (hnm : n ≤ m)
    (h : ladderRun p a k n l = .error c) : ladderRun p a k m l = .error c := by
  obtain ⟨j, rfl⟩ := Nat.exists_eq_add_of_le hnm
  rw [ladderRun_add, h]
  rfl

/-- The end of a command does not depend on the engine's state. -/
theorem finishPt_withLadder (s : State) (d : PReg) (r : Except FaultCode Point)
    (l : Option Ladder) : ({ s with ladder := l } : State).finishPt d r = s.finishPt d r := by
  cases r with
  | error c => rfl
  | ok P => cases P <;> rfl

theorem exec_pmul_withLadder (s : State) (neg : Bool) (d a : PReg) (b : FReg) (l : Option Ladder) :
    exec (.pmul neg d a b) { s with ladder := l } = exec (.pmul neg d a b) s :=
  finishPt_withLadder s d _ l

/-- While PMUL is in progress the sequencer does not look at the engine's state. -/
theorem sequencerTurn_withLadder {s : State} {neg : Bool} {d a : PReg} {b : FReg}
    (hb : s.status.busy = true) (hd : decode s.latched = .ok (.pmul neg d a b))
    (l : Option Ladder) : sequencerTurn { s with ladder := l } = sequencerTurn s := by
  rw [sequencerTurn_of_decode hb hd, ← exec_pmul_withLadder s neg d a b l]
  exact sequencerTurn_of_decode (s := { s with ladder := l }) hb hd

/-- The engine is where the ladder of the command in progress says. -/
theorem State.LadderAt.ladderRun_eq {s : State} {l : Ladder} {neg : Bool} {d a : PReg} {b : FReg}
    (h : s.LadderAt l) (hd : decode s.latched = .ok (.pmul neg d a b)) :
    ladderRun s.consts.cp s.consts.ca (s.readF b) l.i
      (ladderStart (ladderPoint s.consts.cp neg (s.readPt a))) = .ok l := by
  obtain ⟨neg', d', a', b', hd', -, -, -, -, -, hrun⟩ := h
  obtain ⟨rfl, rfl, rfl, rfl⟩ : neg = neg' ∧ d = d' ∧ a = a' ∧ b = b' := by
    simpa [hd] using hd'
  exact hrun

/-- Settles O40: the sequencer computes from the registers, which the engine leaves alone, and an
iteration that faults is one of the run it makes. -/
theorem engineProgressIsHidden : Obligations.EngineProgressIsHidden := by
  intro s hs hb
  rcases engineTurn_cases s with
    he | ⟨neg, d, a, b, -, hd, hlock, hcp, hk, hP, ⟨-, he⟩ | ⟨l, l', -, -, -, he⟩ |
      ⟨l, c, hl, hi, hbit, he⟩⟩ <;> rw [he]
  · exact .inl ⟨hb, rfl⟩
  · exact .inl ⟨hb, sequencerTurn_withLadder hb hd _⟩
  · exact .inl ⟨hb, sequencerTurn_withLadder hb hd _⟩
  · have hr : Ready (.pmul neg d a b) s := ⟨fun _ => hlock, by rintro _ ⟨⟩; exact hcp⟩
    have hrun := ladderRun_succ_of_ok ((hs.ladderOk l hl).ladderRun_eq hd)
    rw [hbit] at hrun
    right
    rw [sequencerTurn_of_decode hb hd]
    exact exec_pmul_of_ladderRun_error hr hk hP (ladderRun_error_of_le hi hrun)

end Sys2Proof.Machine
end

section
/-! SUPPORT. What keeps LOCK, and the statements about LOCK and NOP. -/

namespace Sys2Proof.Machine

/-! ### LOCK -/

/-- A host write keeps LOCK set, but for the soft reset (10_state.md R33). -/
theorem writeTarget_keeps_lock_or {s : State} (h : s.ctrl.lock = true) (v : Word32) (g : Target) :
    (s.writeTarget v g).ctrl.lock = true ∨ (g = .ctrl ∧ v.getLsbD 2 = true) := by
  rcases writeTarget_cases s v g with he | ⟨hg, hv, -⟩ | ⟨-, -, he⟩ | he | ⟨-, -, he⟩ | he | he |
    ⟨-, pt', he, -⟩ | ⟨r, j, -, -, -, he⟩
  case inr.inl => exact .inr ⟨hg, hv⟩
  all_goals rw [he]; left
  · exact h
  · exact Bool.or_eq_true_iff.2 (.inl h)
  iterate 5 exact h
  · rwa [(putReg_rest s _ r).1.ctrl]

/-- An answered access keeps LOCK set, but for a full-word write to CTRL with SRST (10_state.md
R33). -/
theorem hostAccess_keeps_lock_or {a : Access} {s t : State} (hs : s.ctrl.lock = true)
    (h : hostAccess a s = .next t) :
    t.ctrl.lock = true ∨
    (∃ v, a.addr = s.params.base + 0x0008 ∧ a.lanes = 0xF ∧ a.kind = .write v ∧
      v.getLsbD 2 = true) := by
  rcases hostAccess_write_cases h with ⟨w, n, rfl⟩ | ⟨v, off, hk, hl, haddr, hal, rfl⟩
  · exact .inl hs
  · refine (writeTarget_keeps_lock_or hs v (target off)).imp_right fun ⟨hg, hv⟩ => ?_
    obtain rfl := offset_of_target_ctrl hg hal
    exact ⟨v, haddr, hl, hk, hv⟩

/-- Settles O44: the sequencer and the engine keep CTRL, and the host clears LOCK only by SRST. -/
theorem lockHoldsUntilReset : Obligations.LockHoldsUntilReset := by
  intro s t h hs ht
  have hcleared : t.ctrl.lock ≠ true := Bool.eq_false_iff.1 ht
  have hkept (hctrl : t.ctrl = s.ctrl) : False := hcleared (hctrl ▸ hs)
  rcases step_cases h with ⟨-, he⟩ | ⟨rest, -, he⟩ | ⟨rest, -, rfl⟩ | ⟨a, rest, hturns, he⟩ |
    ⟨c, rest, hturns, -⟩
  · exact (hkept (sequencerTurn_keeps he).1.ctrl).elim
  · exact (hkept (sequencerTurn_keeps he).1.ctrl).elim
  · exact (hkept (engineTurn_keeps _).1.ctrl).elim
  · have hkeptOr := hostAccess_keeps_lock_or (s := { s with turns := rest }) hs he
    obtain ⟨v, hwrite⟩ := hkeptOr.resolve_left hcleared
    exact .inl ⟨a, rest, v, hturns, hwrite⟩
  · exact .inr ⟨c, rest, hturns⟩

/-! ### NOP -/

/-- NOP ends without fault and writes no register (43_system.md R170). -/
theorem exec_nop (s : State) : exec .nop s = .next (s.endDone false) := rfl

theorem endedDone_endDone (s : State) (rinf : Bool) : EndedDone s (s.endDone rinf) rinf :=
  ⟨rfl, rfl, rfl⟩

/-- Settles O12: NOP's one effect is the end of a command, and its row uses no field. -/
theorem nopCompletes : Obligations.NopCompletes := by
  refine ⟨by decide, fun s => ⟨_, exec_nop s, rfl, rfl, rfl, rfl,
    sameControl_endDone false (sameControl_refl s), endedDone_endDone s false⟩,
    illegalWhen_opc (by decide) rfl fun d a b hd ha hb => ?_⟩
  obtain rfl : d = 0 := eq_of_beq hd
  obtain rfl : a = 0 := eq_of_beq ha
  obtain rfl : b = 0 := eq_of_beq hb
  simp

end Sys2Proof.Machine
end

section
/-! SUPPORT. What a command whose checks pass can fault with, commands that do not look at LOCK, and
the statements about faults, completion and the interrupt line (60_exceptions.md). -/

namespace Sys2Proof.Machine

/-! ### Data faults -/

/-- A computation that faults only by its data (60_exceptions.md R186). -/
def OnlyDataFaults {α : Type} (r : Except FaultCode α) : Prop :=
  ∀ c, r = .error c → c = .invZero ∨ c = .infCoord

theorem onlyDataFaults_ok {α : Type} (v : α) : OnlyDataFaults (.ok v : Except FaultCode α) := nofun

theorem onlyDataFaults_inv (v : Int) (m : Nat) : OnlyDataFaults (inv v m) :=
  fun _ h => .inl (inv_error_code h)

theorem onlyDataFaults_pointAdd (p a : Nat) (P Q : Point) : OnlyDataFaults (pointAdd p a P Q) :=
  fun _ h => .inl (pointAdd_error_code h)

theorem onlyDataFaults_scalarMul (p a k : Nat) (neg : Bool) (P : Point) :
    OnlyDataFaults (scalarMul p a neg k P) :=
  fun _ h => .inl (scalarMul_error_code h)

theorem onlyDataFaults_coord (pick : Nat → Nat → Nat) (P : Point) :
    OnlyDataFaults (P.coord pick) :=
  fun _ h => .inr (coord_error_code h)

/-- Past the checks of LOCK and of the modulus a command is NOP, or finishes a computation that
faults only by its data. -/
theorem exec_shape_of_ready {i : Instr} {s : State} (hr : Ready i s) :
    exec i s = .next (s.endDone false) ∨
    (∃ d r, exec i s = s.finishF d r ∧ OnlyDataFaults r) ∨
    (∃ d r, exec i s = s.finishPt d r ∧ OnlyDataFaults r) := by
  cases i with
  | nop => exact .inl (exec_nop s)
  | madd => exact .inr (.inl ⟨_, _, exec_madd_of_ready hr, onlyDataFaults_ok _⟩)
  | msub => exact .inr (.inl ⟨_, _, exec_msub_of_ready hr, onlyDataFaults_ok _⟩)
  | mmul => exact .inr (.inl ⟨_, _, exec_mmul_of_ready hr, onlyDataFaults_ok _⟩)
  | minv => exact .inr (.inl ⟨_, _, exec_minv_of_ready hr, onlyDataFaults_inv _ _⟩)
  | mpow => exact .inr (.inl ⟨_, _, exec_mpow_of_ready hr, onlyDataFaults_ok _⟩)
  | fmov => exact .inr (.inl ⟨_, _, rfl, onlyDataFaults_ok _⟩)
  | pgetx | pgety => exact .inr (.inl ⟨_, _, rfl, onlyDataFaults_coord _ _⟩)
  | padd => exact .inr (.inr ⟨_, _, exec_padd_of_ready hr, onlyDataFaults_pointAdd _ _ _ _⟩)
  | pdbl =>
    exact .inr (.inr ⟨_, _, exec_padd_of_ready hr.padd_of_pdbl, onlyDataFaults_pointAdd _ _ _ _⟩)
  | pneg => exact .inr (.inr ⟨_, _, exec_pneg_of_ready hr, onlyDataFaults_ok _⟩)
  | pmul => exact .inr (.inr ⟨_, _, exec_pmul_of_ready hr, onlyDataFaults_scalarMul _ _ _ _ _⟩)
  | pldg => exact .inr (.inr ⟨_, _, exec_pldg_of_lock (hr.lock rfl) _, onlyDataFaults_ok _⟩)
  | pset | pinf | pmov => exact .inr (.inr ⟨_, _, rfl, onlyDataFaults_ok _⟩)

/-- A command that passes its checks takes a data fault, or leaves FAULT alone. -/
theorem exec_cases_of_ready {i : Instr} {s t : State} (hr : Ready i s) (h : exec i s = .next t) :
    (∃ c, (c = .invZero ∨ c = .infCoord) ∧ t = s.takeFault c) ∨
      t.status.fault = s.status.fault := by
  rcases exec_shape_of_ready hr with he | ⟨d, r, he, hdata⟩ | ⟨d, r, he, hdata⟩ <;> rw [he] at h
  · cases h
    exact .inr rfl
  · cases r with
    | error c => cases h; exact .inl ⟨c, hdata c rfl, rfl⟩
    | ok v => cases h; right; simp
  · cases r with
    | error c => cases h; exact .inl ⟨c, hdata c rfl, rfl⟩
    | ok P => cases h; exact .inr rfl

/-- Settles O31: the checks of LOCK and of the modulus fault before anything is computed, and past
them a command faults only by its data. -/
theorem faultPriorityIsCfgThenMod : Obligations.FaultPriorityIsCfgThenMod := by
  refine fun i s => ⟨lockFault i s, modulusFault i s, fun hr t c he hc hclean => ?_⟩
  rcases exec_cases_of_ready hr he with ⟨c', hdata, rfl⟩ | hfault
  · obtain rfl : c' = c := congrArg Status.fcode hc.status
    exact hdata
  · simp [hc.status, hclean] at hfault

/-! ### The two ways a command ends -/

/-- A write to F leaves the reads of every other register (10_state.md R21). -/
theorem readF_writeF_of_ne {s : State} {d j : FReg} (h : j ≠ d) (v : Nat) :
    (s.writeF d v).readF j = s.readF j := by
  by_cases h0 : j = 0
  · simp [h0, State.readF]
  · simp [h0, h]

/-- RINF is the inf bit that a Point value is written with (10_state.md R39). -/
theorem ptReg_inf (s : State) (P : Point) : (s.ptReg P).inf = P.isInf := by
  cases P <;> rfl

/-- Settles O34: each way a command can end writes at most its destination. -/
theorem everyCommandEndsWholeOrWithFault : Obligations.EveryCommandEndsWholeOrWithFault := by
  intro i s
  obtain ⟨t, he⟩ := exec_answers i s
  obtain ⟨hcontrol, hconsts, hmg⟩ := exec_keeps he
  refine ⟨t, he, ?_⟩
  rcases exec_cases he with ⟨c, hc, rfl⟩ | ⟨hd, rfl⟩ | ⟨d, v, hd, rfl⟩ | ⟨d, P, hd, rfl⟩
  · exact .inl ⟨c, hc, endedFault_takeFault s c⟩
  all_goals refine .inr ⟨hcontrol, hconsts, hmg, ?_⟩; rw [hd]
  · exact ⟨rfl, rfl, endedDone_endDone s false⟩
  · exact ⟨fun j hj => readF_writeF_of_ne hj v, by simp, by simp, by simp, rfl⟩
  · refine ⟨fun j hj => (getElem_writePt s d j P).trans (if_neg hj), rfl, ?_⟩
    rw [endDone_pt, getElem_writePt, if_pos rfl, ptReg_inf]
    exact ⟨rfl, rfl, rfl⟩

/-! ### Commands that need no lock -/

/-- The state with another value of LOCK. -/
def State.withLock (s : State) (l : Bool) : State := { s with ctrl := { s.ctrl with lock := l } }

/-- Ending a command with an F destination neither reads nor writes LOCK. -/
theorem finishF_withLock (s : State) (d : FReg) (r : Except FaultCode Nat) (l : Bool) :
    ∃ t, s.finishF d r = .next t ∧ (s.withLock l).finishF d r = .next (t.withLock l) := by
  cases r with
  | error c => exact ⟨_, rfl, rfl⟩
  | ok v =>
    refine ⟨_, rfl, ?_⟩
    simp only [State.finishF, State.writeF]
    split <;> rfl

theorem finishPt_withLock (s : State) (d : PReg) (r : Except FaultCode Point) (l : Bool) :
    ∃ t, s.finishPt d r = .next t ∧ (s.withLock l).finishPt d r = .next (t.withLock l) := by
  cases r with
  | error c => exact ⟨_, rfl, rfl⟩
  | ok P => cases P <;> exact ⟨_, rfl, rfl⟩

/-- Settles O32: with the modulus MG, or with none, what a command computes is the same for either
value of LOCK, and so is the way it ends. -/
theorem unlockedCommandsIgnoreLock : Obligations.UnlockedCommandsIgnoreLock := by
  intro i s l hl
  cases i with
  | nop => exact ⟨_, rfl, rfl⟩
  | madd sel d _ _ | msub sel d _ _ | mmul sel d _ _ | minv sel d _ | mpow sel d _ _ =>
    obtain rfl : sel = .g := by simpa [lockNeeded] using hl
    exact finishF_withLock s d _ l
  | fmov d a => exact finishF_withLock s d (.ok (s.readF a)) l
  | pgetx d _ | pgety d _ => exact finishF_withLock s d _ l
  | pset d x y => exact finishPt_withLock s d (.ok (.affine (s.readF x) (s.readF y))) l
  | pinf d => exact finishPt_withLock s d (.ok .inf) l
  | pmov d a => exact finishPt_withLock s d (.ok (s.readPt a)) l
  | padd | pdbl | pneg | pmul | pldg => cases hl

/-! ### The interrupt line and the return from a fault -/

theorem irq_iff (s : State) :
    s.irq = true ↔ s.ctrl.ie = true ∧ (s.status.done = true ∨ s.status.fault = true) := by
  simp [State.irq]

theorem irq_of_clean {s : State} (hd : s.status.done = false) (hf : s.status.fault = false) :
    s.irq = false := by
  simp [State.irq, hd, hf]

/-- Every command ends with DONE or FAULT set (10_state.md R40). -/
theorem exec_ends {i : Instr} {s t : State} (h : exec i s = .next t) :
    t.status.done = true ∨ t.status.fault = true := by
  rcases exec_cases h with ⟨c, -, rfl⟩ | ⟨-, rfl⟩ | ⟨d, v, -, rfl⟩ | ⟨d, P, -, rfl⟩
  · exact .inr rfl
  iterate 3 exact .inl rfl

/-- An Idle, unfaulted block accepts a CMD write (10_state.md R36). -/
theorem hostAccess_write_cmd_of_idle {s : State} (hb : s.status.busy = false)
    (hf : s.status.fault = false) (c : Word32) :
    hostAccess (writeAt s 0x0010 c) s = .next (s.acceptCmd c) := by
  rw [hostAccess_write_cmd, State.cmdWrite, if_pos (by simp [hb, hf])]

/-- Settles O49: a command ends with DONE or FAULT and keeps IE, and each of the two host writes
leaves neither set. -/
theorem interruptLineFollowsCompletion : Obligations.InterruptLineFollowsCompletion := by
  refine fun s => ⟨irq_iff s, fun i t he => ?_, fun t ht => ?_, fun c t hb hf ht => ?_⟩
  · rw [Bool.eq_iff_iff, irq_iff, (exec_keeps he).1.ctrl]
    exact and_iff_left (exec_ends he)
  · rw [hostAccess_write_status] at ht
    cases ht
    exact irq_of_clean (by simp [Status.cleared]) (by simp [Status.cleared])
  · rw [hostAccess_write_cmd_of_idle hb hf] at ht
    cases ht
    exact irq_of_clean rfl hf

/-- A faulted block is Idle (10_state.md R36). -/
theorem State.Inv.idle_of_fault {s : State} (h : s.Inv) (hf : s.status.fault = true) :
    s.status.busy = false :=
  Bool.eq_false_iff.2 fun hb => by simp [(h.busyClean hb).2] at hf

/-- Settles O50: the write clears FAULT in a block that is Idle already, which is when CMD writes are
accepted. -/
theorem faultReturnReopensTheBlock : Obligations.FaultReturnReopensTheBlock := by
  intro s hs hf
  have hidle : (s.statusWrite 0x00000004).status.busy = false := hs.idle_of_fault hf
  have hclear : (s.statusWrite 0x00000004).status.fault = false := by simp [Status.cleared]
  exact ⟨_, hostAccess_write_status s _, hclear, rfl, rfl, rfl, rfl, rfl, rfl, hidle,
    fun c => ⟨_, hostAccess_write_cmd_of_idle hidle hclear c, rfl, rfl⟩⟩

end Sys2Proof.Machine
end

section
/-! SUPPORT. How the block ends what is in progress and how it starts over: the end of a command, the
writes it drops, the 128 writes of a whole window, and the two resets (70_reset_and_hazards.md). -/

namespace Sys2Proof.Machine

/-! ### The end of a command in progress -/

/-- A command that begins with DONE and FAULT clear ends Idle with exactly one of them set
(10_state.md R40). -/
theorem exec_ends_with_one {i : Instr} {s t : State} (hd : s.status.done = false)
    (hf : s.status.fault = false) (h : exec i s = .next t) :
    t.status.busy = false ∧ t.status.done = !t.status.fault := by
  rcases exec_cases h with ⟨c, -, rfl⟩ | ⟨-, rfl⟩ | ⟨d, v, -, rfl⟩ | ⟨d, P, -, rfl⟩
  · exact ⟨rfl, hd⟩
  iterate 3 exact ⟨rfl, by simp [hf]⟩

/-- Settles O41: the sequencer's turn answers, and in a Busy block it executes the command or faults
its illegal word. -/
theorem everyAcceptedCommandEnds : Obligations.EveryAcceptedCommandEnds := by
  intro s hs hb ht
  obtain ⟨hd, hf⟩ := hs.busyClean hb
  obtain ⟨t, he⟩ := sequencerTurn_answers s
  refine ⟨t, by rw [step_nil ht, he], ?_⟩
  rcases sequencerTurn_cases he with ⟨hidle, -⟩ | ⟨-, i, -, hi⟩ | ⟨-, -, rfl⟩
  · simp [hidle] at hb
  · exact exec_ends_with_one hd hf hi
  · simp [hd]

/-! ### Writes that are dropped -/

/-- A window write while Busy, or to a locked register, is dropped (20_memory.md R68, R69). -/
theorem dropped_window {s : State} {r : WinReg} {j : Nat} (v : Word32) (hj : j < 128)
    (h : s.status.busy = true ∨ (s.ctrl.lock = true ∧ r.lockable = true)) :
    Dropped s (r.offset + 4 * j) v := by
  obtain ⟨hlt, ha⟩ := offset_bounds r hj
  have hclosed : (s.status.busy || s.ctrl.lock && r.lockable) = true := by simpa using h
  unfold Dropped
  rw [hostAccess_writeAt s v hlt ha, target_window r hj]
  exact congrArg _ (if_pos hclosed)

/-- A PTINF write while Busy is dropped (20_memory.md R68). -/
theorem dropped_ptinf {s : State} (v : Word32) (hb : s.status.busy = true) :
    Dropped s 0x0018 v := by
  unfold Dropped
  rw [hostAccess_write_ptinf]
  exact congrArg _ (if_pos hb)

/-- Settles O54: the two reasons for which a window write is dropped, and the one for PTINF. -/
theorem forbiddenDataWritesAreDropped : Obligations.ForbiddenDataWritesAreDropped := by
  refine fun s r j v hj => ⟨fun hb => ⟨dropped_window v hj (.inl hb), dropped_ptinf v hb⟩, ?_⟩
  rintro c rfl hl
  exact dropped_window v hj (.inr ⟨hl, rfl⟩)

/-! ### The writes of a whole window -/

/-- The state t differs from s in the value of the register r at most. -/
structure SameBut (r : WinReg) (s t : State) : Prop where
  others : ∀ r', r' ≠ r → t.regValue r' = s.regValue r'
  inf : ∀ i : PReg, t.pt[i].inf = s.pt[i].inf
  status : t.status = s.status
  control : SameControl s t
  fcmd : t.fcmd = s.fcmd
  ladder : t.ladder = s.ladder

theorem SameBut.refl (r : WinReg) (s : State) : SameBut r s s :=
  ⟨fun _ _ => rfl, fun _ => rfl, rfl, sameControl_refl s, rfl, rfl⟩

/-- The turns still to come may be set aside before the change or after it. -/
theorem SameBut.trans_withTurns {r : WinReg} {s t u : State} {rest ts : List Turn}
    (h : SameBut r { s with turns := rest } t) (h' : SameBut r { t with turns := ts } u) :
    SameBut r { s with turns := ts } u where
  others r' hr := (h'.others r' hr).trans (h.others r' hr)
  inf i := (h'.inf i).trans (h.inf i)
  status := h'.status.trans h.status
  control :=
    { params := h'.control.params.trans h.control.params
      ctrl := h'.control.ctrl.trans h.control.ctrl
      cmd := h'.control.cmd.trans h.control.cmd
      latched := h'.control.latched.trans h.control.latched
      busData := h'.control.busData.trans h.control.busData
      turns := h'.control.turns
      draws := h'.control.draws.trans h.control.draws }
  fcmd := h'.fcmd.trans h.fcmd
  ladder := h'.ladder.trans h.ladder

/-- The window word that holds bit n of a register (20_memory.md R64). -/
def wordOfBit (n : Nat) : Nat := 127 - n / 32

theorem wordOfBit_eq_iff {n j : Nat} (hn : n < 4096) (hj : j < 128) :
    wordOfBit n = j ↔ 4064 - 32 * j ≤ n ∧ n < 4096 - 32 * j := by
  unfold wordOfBit
  omega

/-- The turn that writes word j of the window of r from the value v. -/
def State.wordTurn (s : State) (r : WinReg) (v j : Nat) : Turn :=
  s.memWrite (r.offset + 4 * j) (windowWord v j)

/-- A turn that writes a word depends on the state by BASE alone. -/
theorem wordTurn_congr {s t : State} (h : t.params = s.params) (r : WinReg) (v : Nat) :
    t.wordTurn r v = s.wordTurn r v := by
  funext j
  simp only [State.wordTurn, State.memWrite, h]

/-- The step that writes word j of v loads the bits of v that this word holds. -/
theorem step_wordTurn {s : State} {r : WinReg} {v j : Nat} {rest : List Turn} (hs : s.Inv)
    (hb : s.status.busy = false) (hl : s.ctrl.lock = true → r.lockable = false) (hr : r ≠ .f 0)
    (hj : j < 128) (ht : s.turns = s.wordTurn r v j :: rest) :
    ∃ t, step s = .next t ∧ t.Inv ∧ SameBut r { s with turns := rest } t ∧
      ∀ n < s.params.width, (t.regValue r).testBit n =
        if wordOfBit n = j then v.testBit n else (s.regValue r).testBit n := by
  obtain ⟨t, he, hbits, hothers, hinf, hstatus, hcontrol, hfcmd, hladder⟩ :=
    windowWritesChangeOnlyTheirBits { s with turns := rest } r j (windowWord v j)
      (hs.withModelFields s.busData rest s.draws) hj hb hl hr
  have hstep : step s = .next t := (step_cons ht).trans he
  refine ⟨t, hstep, stepKeepsInvariant s t hs hstep,
    ⟨hothers, hinf, hstatus, hcontrol, hfcmd, hladder⟩, fun n hn => ?_⟩
  have hmax : s.params.width ≤ 4096 := hs.legal.2
  rw [hbits n, decide_eq_true hn, Bool.true_and]
  simp only [wordOfBit_eq_iff (show n < 4096 by omega) hj]
  split
  · rename_i hword
    rw [getLsbD_windowWord v j _ (by omega), wordLow, Nat.add_sub_cancel' hword.1]
  · rfl

/-- Steps that write the words js of v load the bits of v that these words hold. -/
theorem run_wordTurns {r : WinReg} (hr : r ≠ .f 0) (v : Nat) :
    ∀ (js : List Nat) (s : State), (∀ j ∈ js, j < 128) → s.Inv → s.status.busy = false →
      (s.ctrl.lock = true → r.lockable = false) → s.turns = js.map (s.wordTurn r v) →
      ∃ t, Sys2Proof.core.run js.length s = .next t ∧ t.Inv ∧ SameBut r { s with turns := [] } t ∧
        ∀ n < s.params.width, (t.regValue r).testBit n =
          if wordOfBit n ∈ js then v.testBit n else (s.regValue r).testBit n := by
  intro js
  induction js with
  | nil =>
    intro s _ hs _ _ ht
    have hturns : ({ s with turns := [] } : State) = s := by rw [← show s.turns = [] from ht]
    exact ⟨s, rfl, hs, hturns ▸ SameBut.refl r s, fun n _ => by simp⟩
  | cons j js ih =>
    intro s hjs hs hb hl ht
    obtain ⟨hj, hjs⟩ := List.forall_mem_cons.1 hjs
    obtain ⟨t, hstep, hinv, hsame, hbits⟩ := step_wordTurn hs hb hl hr hj ht
    have hparams : t.params = s.params := hsame.control.params
    have hturns : t.turns = js.map (t.wordTurn r v) := by
      rw [hsame.control.turns, wordTurn_congr hparams r v]
    have hbusy : t.status.busy = false := by rw [hsame.status]; exact hb
    have hlock : t.ctrl.lock = true → r.lockable = false := by rw [hsame.control.ctrl]; exact hl
    obtain ⟨u, hrun, huinv, husame, hubits⟩ := ih t hjs hinv hbusy hlock hturns
    refine ⟨u, (core_run_succ js.length hstep).trans hrun, huinv, hsame.trans_withTurns husame,
      fun n hn => ?_⟩
    rw [hubits n (hparams ▸ hn), hbits n hn]
    by_cases hmem : wordOfBit n ∈ js <;> simp [hmem]

/-- Settles O53: the 128 words of the window hold every bit below W between them. -/
theorem wholeWindowWriteLoadsTheValue : Obligations.WholeWindowWriteLoadsTheValue := by
  intro s r v hs hb hl hr
  obtain ⟨t, hrun, hinv, hsame, hbits⟩ :=
    run_wordTurns hr v (List.range 128) { s with turns := Directive.turns s (.wr r v) }
      (fun _ => List.mem_range.1) (hs.withModelFields s.busData _ s.draws) hb hl rfl
  rw [List.length_range] at hrun
  refine ⟨t, hrun, ?_, hsame.others, hsame.inf, hsame.status, hsame.control, hsame.fcmd,
    hsame.ladder⟩
  have hfits : t.regValue r < 2 ^ s.params.width := by
    have hparams : t.params = s.params := hsame.control.params
    exact hparams ▸ hinv.fits r
  apply Nat.eq_of_testBit_eq
  intro n
  rw [Nat.testBit_mod_two_pow]
  by_cases hn : n < s.params.width
  · have hword : wordOfBit n ∈ List.range 128 := List.mem_range.2 (by unfold wordOfBit; omega)
    rw [hbits n hn, if_pos hword, decide_eq_true hn, Bool.true_and]
  · have hhigh : t.regValue r < 2 ^ n :=
      hfits.trans_le (Nat.pow_le_pow_right (by decide) (Nat.le_of_not_lt hn))
    rw [Nat.testBit_lt_two_pow hhigh, decide_eq_false hn, Bool.false_and]

/-! ### The two resets -/

/-- CTRL reads 0 after a reset (10_state.md R41). -/
theorem ctrlWord_reset : State.reset.ctrl.word = 0 := by decide

/-- STATUS reads 0 after a reset (10_state.md R41). -/
theorem statusWord_reset : State.reset.status.word = 0 := by decide

/-- A destination that becomes unspecified leaves every other F register alone. -/
theorem readF_unspecify {s : State} {d : Dest} {j : FReg} (h : d ≠ .f j) :
    (s.unspecify d).readF j = s.readF j := by
  cases d with
  | none => rfl
  | pt d => rfl
  | f d =>
    have hne : (d : Nat) ≠ j := fun e => h (congrArg Dest.f (Fin.ext e))
    simp only [State.unspecify]
    split
    · rfl
    · simp [State.readF, hne]

/-- A destination that becomes unspecified leaves every other PT register alone. -/
theorem pt_unspecify {s : State} {d : Dest} {j : PReg} (h : d ≠ .pt j) :
    (s.unspecify d).pt[j] = s.pt[j] := by
  cases d with
  | none => rfl
  | f d => simp only [State.unspecify]; split <;> rfl
  | pt d =>
    have hne : (d : Nat) ≠ j := fun e => h (congrArg Dest.pt (Fin.ext e))
    simp [State.unspecify, hne]

/-- While Idle a soft reset keeps every F and PT register (70_reset_and_hazards.md R212). -/
theorem softReset_of_idle {s : State} (hb : s.status.busy = false) :
    s.softReset = s.clearControl := by
  simp [State.softReset, State.destInProgress, hb, State.unspecify]

/-- While Busy with a legal word a soft reset makes its destination unspecified
(70_reset_and_hazards.md R212). -/
theorem softReset_of_decode {s : State} {i : Instr} (hb : s.status.busy = true)
    (hd : decode s.latched = .ok i) : s.softReset = (s.unspecify (destOf i)).clearControl := by
  simp [State.softReset, State.destInProgress, hb, hd]

/-- Settles O59: the control state is that of reset, and of the data registers only the destination
is written. -/
theorem softResetKeepsDataButTheDestination :
    Obligations.SoftResetKeepsDataButTheDestination := by
  intro s v hv
  obtain ⟨hparams, hconsts, hmg⟩ := softReset_keeps s
  refine ⟨s.softReset, by rw [hostAccess_write_ctrl, State.ctrlWrite, if_pos hv],
    ctrlWord_reset, statusWord_reset, rfl, rfl, rfl, hconsts, hmg, hparams, fun hb => ?_,
    fun i hb hd => ?_⟩
  · rw [softReset_of_idle hb]
    exact ⟨rfl, rfl⟩
  · rw [softReset_of_decode hb hd]
    exact ⟨fun j => readF_unspecify, fun j => pt_unspecify⟩

/-- Settles O60: the turn of the reset input is the reset, whatever access came with it. -/
theorem hardwareResetOverridesEverything : Obligations.HardwareResetOverridesEverything := by
  intro s c rest ht
  exact ⟨State.hardReset { s with turns := rest }, step_cons ht, ctrlWord_reset, statusWord_reset,
    rfl, rfl, rfl, rfl, rfl, rfl,
    fun c' => step_cons (s := { s with turns := .reset c' :: rest }) rfl⟩

end Sys2Proof.Machine
end
